-- ==== Sys2Proof/Word.lean ====
section
/-! DEFINITION. The one word of the machine: an unsigned 8-bit byte (00_scope.md R8, 20_memory.md R42). -/

namespace Sys2Proof

/-- A register, a memory cell or an operand byte: an unsigned 8-bit value, 0 to 255 (R8). -/
abbrev Byte := BitVec 8

end Sys2Proof
end

