-- ==== Sys2Proof/Syntax.lean ====
section
/-! DEFINITION. The instruction set SCCA-20 (00_scope.md R2): one constructor per row of spec/opcode_table.json,
the four formats of 30_encoding.md R61 to R64, and the assembler notation of R71. -/

namespace Sys2Proof

/-- The 20 instructions. An operand is the whole operand byte, 0 to 255: R65 says that a register-index byte of 8
or more is no illegal encoding and faults only when the handler uses it, so it is part of the syntax. -/
inductive Instr where
  /-- HLT, R121. -/
  | hlt
  /-- RET, R126. -/
  | ret
  /-- PUSH Ra, R103. -/
  | push (a : Byte)
  /-- POP Ra, R104. -/
  | pop (a : Byte)
  /-- PRN Ra, R106. -/
  | prn (a : Byte)
  /-- CALL Ra, R125. -/
  | call (a : Byte)
  /-- JMP Ra, R122. -/
  | jmp (a : Byte)
  /-- JEQ Ra, R123. -/
  | jeq (a : Byte)
  /-- JNE Ra, R124. -/
  | jne (a : Byte)
  /-- NOT Ra, R89. -/
  | not (a : Byte)
  /-- LDI Ra, imm, R101. -/
  | ldi (a imm : Byte)
  /-- ADD Ra, Rb, R82. -/
  | add (a b : Byte)
  /-- MUL Ra, Rb, R83. -/
  | mul (a b : Byte)
  /-- MOD Ra, Rb, R84. -/
  | mod (a b : Byte)
  /-- CMP Ra, Rb, R85. -/
  | cmp (a b : Byte)
  /-- AND Ra, Rb, R86. -/
  | and (a b : Byte)
  /-- OR Ra, Rb, R87. -/
  | or (a b : Byte)
  /-- XOR Ra, Rb, R88. -/
  | xor (a b : Byte)
  /-- SHL Ra, Rb, R90. -/
  | shl (a b : Byte)
  /-- SHR Ra, Rb, R91. -/
  | shr (a b : Byte)
  deriving DecidableEq, Repr

/-- The formats of R61 to R64. -/
inductive Format where
  /-- One byte: the opcode (R61). -/
  | z
  /-- Two bytes: opcode, register index (R62). -/
  | a
  /-- Three bytes: opcode, register index, register index (R63). -/
  | ab
  /-- Three bytes: opcode, register index, immediate (R64). -/
  | ai
  deriving DecidableEq, Repr

/-- The format column of R67. -/
def Instr.format : Instr → Format
  | .hlt | .ret => .z
  | .push _ | .pop _ | .prn _ | .call _ | .jmp _ | .jeq _ | .jne _ | .not _ => .a
  | .ldi _ _ => .ai
  | .add _ _ | .mul _ _ | .mod _ _ | .cmp _ _ | .and _ _ | .or _ _ | .xor _ _ | .shl _ _ | .shr _ _ => .ab

/-- The length in bytes that a format gives (R61 to R64). -/
def Format.length : Format → Nat
  | .z => 1
  | .a => 2
  | .ab => 3
  | .ai => 3

/-- The bytes an instruction occupies, the length column of R67. -/
def Instr.length (i : Instr) : Nat := i.format.length

/-- The operand bytes a format calls register indices (R62 to R64): `op_a`, and `op_b` in format AB. -/
def Instr.registerOperands : Instr → List Byte
  | .hlt | .ret => []
  | .push a | .pop a | .prn a | .call a | .jmp a | .jeq a | .jne a | .not a | .ldi a _ => [a]
  | .add a b | .mul a b | .mod a b | .cmp a b | .and a b | .or a b | .xor a b | .shl a b | .shr a b => [a, b]

/-- The mnemonic column of R67. -/
def Instr.mnemonic : Instr → String
  | .hlt => "HLT"
  | .ret => "RET"
  | .push _ => "PUSH"
  | .pop _ => "POP"
  | .prn _ => "PRN"
  | .call _ => "CALL"
  | .jmp _ => "JMP"
  | .jeq _ => "JEQ"
  | .jne _ => "JNE"
  | .not _ => "NOT"
  | .ldi _ _ => "LDI"
  | .add _ _ => "ADD"
  | .mul _ _ => "MUL"
  | .mod _ _ => "MOD"
  | .cmp _ _ => "CMP"
  | .and _ _ => "AND"
  | .or _ _ => "OR"
  | .xor _ _ => "XOR"
  | .shl _ _ => "SHL"
  | .shr _ _ => "SHR"

/-- The spec's assembler text of one instruction (R71, notation only; DESIGN CHOICE of the spec, D14: log entry 23). -/
def Instr.asm (i : Instr) : String :=
  match i with
  | .ldi a imm => i.mnemonic ++ " R" ++ toString a.toNat ++ ", " ++ toString imm.toNat
  | _ =>
    match i.registerOperands with
    | [] => i.mnemonic
    | [a] => i.mnemonic ++ " R" ++ toString a.toNat
    | a :: b :: _ => i.mnemonic ++ " R" ++ toString a.toNat ++ ", R" ++ toString b.toNat

end Sys2Proof
end

