-- ==== Sys2Proof/WellFormed.lean ====
section
/-! DEFINITION. Well-formed instructions: those that name only registers the hardware has (30_encoding.md R65). -/

namespace Sys2Proof

/-- The byte selects one of x[0] to x[7] (R65). -/
def namesRegister (b : Byte) : Bool := decide (b.toNat < 8)

/-- Every register index the instruction's format carries selects a register (R65: "Values 0 to 7 select x[0] to
x[7]"). An ill-formed instruction is no illegal encoding: it decodes, and raises `RegIndexFault` when its handler uses
the index (R69, R143). So decoding and encoding are stated for every instruction; well-formedness is what the
completion statements assume. Log entry 20. -/
def Instr.wellFormed (i : Instr) : Bool := i.registerOperands.all namesRegister

end Sys2Proof
end

