-- ==== Sys2Proof/Decode.lean ====
section
/-! DEFINITION. The fetch window, the decoder (30_encoding.md R66, R67) and the encoder written from the same table. -/

namespace Sys2Proof

/-- The three bytes every fetch reads at pc, pc+1, pc+2 (R60, 10_state.md R35): the opcode byte and two operand bytes. -/
structure Window where
  ir  : Byte
  opA : Byte
  opB : Byte
  deriving DecidableEq, Repr

/-- Why a window does not decode: its first byte is none of the 20 opcodes (R69). -/
inductive DecodeError where
  | unknownOpcode (ir : Byte)
  deriving DecidableEq, Repr

/-- One exact match of the whole opcode byte against the Dispatch Table (R66, R67). Operand bytes a format does not use
are not looked at (R60, R65); no bit field of the opcode is decoded on its own (R68). -/
def decode (w : Window) : Except DecodeError Instr :=
  match w.ir.toNat with
  | 1 => .ok .hlt
  | 17 => .ok .ret
  | 69 => .ok (.push w.opA)
  | 70 => .ok (.pop w.opA)
  | 71 => .ok (.prn w.opA)
  | 80 => .ok (.call w.opA)
  | 84 => .ok (.jmp w.opA)
  | 85 => .ok (.jeq w.opA)
  | 86 => .ok (.jne w.opA)
  | 105 => .ok (.not w.opA)
  | 130 => .ok (.ldi w.opA w.opB)
  | 160 => .ok (.add w.opA w.opB)
  | 162 => .ok (.mul w.opA w.opB)
  | 164 => .ok (.mod w.opA w.opB)
  | 167 => .ok (.cmp w.opA w.opB)
  | 168 => .ok (.and w.opA w.opB)
  | 170 => .ok (.or w.opA w.opB)
  | 171 => .ok (.xor w.opA w.opB)
  | 172 => .ok (.shl w.opA w.opB)
  | 173 => .ok (.shr w.opA w.opB)
  | _ => .error (.unknownOpcode w.ir)

/-- The opcode byte of each instruction, from the binary column of R67. -/
def opcode : Instr → Byte
  | .hlt => 0b00000001
  | .ret => 0b00010001
  | .push _ => 0b01000101
  | .pop _ => 0b01000110
  | .prn _ => 0b01000111
  | .call _ => 0b01010000
  | .jmp _ => 0b01010100
  | .jeq _ => 0b01010101
  | .jne _ => 0b01010110
  | .not _ => 0b01101001
  | .ldi _ _ => 0b10000010
  | .add _ _ => 0b10100000
  | .mul _ _ => 0b10100010
  | .mod _ _ => 0b10100100
  | .cmp _ _ => 0b10100111
  | .and _ _ => 0b10101000
  | .or _ _ => 0b10101010
  | .xor _ _ => 0b10101011
  | .shl _ _ => 0b10101100
  | .shr _ _ => 0b10101101

/-- The operand bytes after the opcode, in increasing address order (R61 to R64). -/
def operandBytes : Instr → List Byte
  | .ldi a imm => [a, imm]
  | i => i.registerOperands

/-- The bytes of an instruction, the first at the lowest address (R42, R61 to R64). -/
def encode (i : Instr) : List Byte := opcode i :: operandBytes i

/-- The window a fetch reads at the start of a run of bytes; none where fewer than three are left. -/
def windowOfBytes : List Byte → Option Window
  | ir :: opA :: opB :: _ => some { ir, opA, opB }
  | _ => none

/-- The first three bytes of an instruction whose bits, numbered as spec/opcode_table.json numbers them (bit 0 the least
significant bit of the first byte), are the low `nbits` bits of `w`, and every bit above them 0. -/
def windowOfTableWord (nbits w : Nat) : Window :=
  let v := w % 2 ^ nbits
  { ir := BitVec.ofNat 8 v, opA := BitVec.ofNat 8 (v / 2 ^ 8), opB := BitVec.ofNat 8 (v / 2 ^ 16) }

/-- What the decoder reads from an instruction whose table bits are `w`. -/
def decodeTableWord (nbits w : Nat) : Option Instr := (decode (windowOfTableWord nbits w)).toOption

end Sys2Proof
end

