-- ==== Sys2Proof/Config.lean ====
section
/-! DEFINITION. What is fixed for this hardware: the parameters of 00_scope.md R6, and those of R7 at the values
the spec decides (92_eei_decisions.md). `BOUNDS_EXIT_CODE` is OPEN in R7 and stays uninterpreted here. -/

namespace Sys2Proof.Config

/-- `MEM_SIZE` (R6): memory has 256 cells, addresses 0 to 255. -/
def memSize : Nat := 256

/-- `NREG` (R6): eight general registers, indices 0 to 7. -/
abbrev nReg : Nat := 8

/-- `SP_INDEX` (R6): the register used as stack pointer. -/
def spIndex : Fin nReg := 7

/-- `SP_RESET` (R6): the reset value of register 7. -/
def spReset : Byte := 255

/-- `FETCH_WINDOW` (R6): the bytes read by every fetch. -/
def fetchWindow : Nat := 3

/-- `GPR_RESET` (R7), the reset value of R0 to R6. DESIGN CHOICE, the spec's own (D4); unsafe: log entry 1. -/
def gprReset : Byte := 0

/-- `FL_RESET` (R7), the reset value of `fl`. DESIGN CHOICE, the spec's own (D5); unsafe: log entry 2. -/
def flReset : Byte := 0

/-- `MEM_FILL` (R7): what a cell that nothing has written reads as, the ONE definition of it.
DESIGN CHOICE, the spec's own (D6); unsafe: log entry 3. -/
def memFill : Byte := 0

/-- `DIVZERO_PC_ADVANCE` (R7): the pc change of MOD by zero. DESIGN CHOICE, the spec's own (D9); unsafe: log entry 7. -/
def divZeroPcAdvance : Nat := 3

/-- The host's exit code after HLT (R12). -/
def hltExitCode : Nat := 0

/-- `DIVZERO_EXIT_CODE` (R7). DESIGN CHOICE, the spec's own (D10); unsafe: log entry 8. -/
def divZeroExitCode : Nat := 0

/-- The host's exit code after an unknown opcode (R12). -/
def unknownOpcodeExitCode : Nat := 1

/-- The host's exit code after a load failure (R12: "1 on load failure"). -/
def loadFailureExitCode : Nat := 1

/-- One less than `BOUNDS_EXIT_CODE`, which R7 leaves OPEN: a free value, of which nothing can be proved. Log entry 8. -/
opaque boundsExitCodeLessOne : Nat

/-- `BOUNDS_EXIT_CODE` (R7): OPEN, nonzero. -/
def boundsExitCode : Nat := boundsExitCodeLessOne + 1

end Sys2Proof.Config
end

