-- ==== Sys2Proof/Machine/State.lean ====
section
/-! DEFINITION. The whole state of the CORE (10_state.md R20) as plain data, the reasons it halts (60_exceptions.md
R140), and the state after reset (R36). -/

namespace Sys2Proof.Machine

/-- Which operand byte a `RegIndexFault` names (R140). -/
inductive OperandField where
  | a
  | b
  deriving DecidableEq, Repr

/-- The five reasons the core stops, with the information R140 records. -/
inductive HaltReason where
  /-- Clean halt by HLT (R121). -/
  | hlt
  /-- Clean halt by MOD with a zero divisor (R144). -/
  | divZero
  /-- The fetched opcode byte is none of the 20 (R141). -/
  | unknownOpcode (ir : Byte)
  /-- The fetch window reaches the address `addr`, 256 or more (R142). -/
  | fetchBoundsFault (addr : Nat)
  /-- An operand byte of 8 or more was used as a register index (R143). -/
  | regIndexFault (field : OperandField) (value : Byte)
  deriving DecidableEq, Repr

/-- `status` (R32). -/
inductive Status where
  | running
  | halted (reason : HaltReason)
  deriving DecidableEq, Repr

/-- Memory as (address, byte) pairs in the canonical form of `Memory.wf` (Machine/Ops.lean): addresses strictly rising,
all below 256, and no entry equal to `Config.memFill`, which an unlisted cell reads as. -/
abbrev Memory := List Host.Cell

/-- The state of R20: exactly these components, and nothing else. `running` and `status` are both named by R20 and both
held; log entry 17. -/
structure State where
  /-- 256 cells of 8 bits (R40). -/
  mem     : Memory
  /-- `x[0..7]`; `x[7]` is SP (R21, R22). -/
  x       : Vector Byte Config.nReg
  /-- A natural number, never reduced (R25). -/
  pc      : Nat
  /-- Bit 0 Equal, bit 1 Greater, bit 2 Less (R28). -/
  fl      : Byte
  /-- The running flag (R32). -/
  running : Bool
  /-- `Running` or `Halted(reason)` (R32). -/
  status  : Status
  /-- The bytes emitted by PRN, oldest first (R33). -/
  out     : List Byte
  deriving DecidableEq, Repr

/-- How a step can end in no next state. -/
inductive Fault where
  /-- Raised by `step` alone, on a state whose status is already `Halted(reason)`: R157, "Such a state has no step".
  Safe: the machine stops where the hardware has stopped. Log entry 4. -/
  | coreHalted (reason : HaltReason)
  deriving DecidableEq, Repr

/-- The reasons to answer no meaning. -/
inductive Refusal where
  /-- Raised by an arm of `exec` that has no meaning yet; no arm does. Safe. -/
  | notModelled (mnemonic : String)
  deriving DecidableEq, Repr

/-- What a meaning or a step answers. -/
abbrev Result := Host.Outcome State Fault Refusal

/-- The state after reset with an empty image (R36, R160): pc 0, SP 255, running, nothing listed in memory, and the
spec's decided values for R0 to R6, `fl` and the cells no image covers (log entries 1, 2, 3). An image is placed by
`resetWithImage` (Machine/Loader.lean). -/
def State.reset : State where
  mem := []
  x := #v[Config.gprReset, Config.gprReset, Config.gprReset, Config.gprReset,
          Config.gprReset, Config.gprReset, Config.gprReset, Config.spReset]
  pc := 0
  fl := Config.flReset
  running := true
  status := .running
  out := []

end Sys2Proof.Machine
end

