-- ==== Sys2Proof/Machine/Ops.lean ====
section
/-! DEFINITION. The named operations over memory, registers, pc, status and output (the primitives of 00_scope.md R9),
halting and raising a fault, and the fetch. -/

namespace Sys2Proof.Machine

/-! ## Memory (20_memory.md R40, R42) -/

/-- The byte at an address; a cell that is not listed reads as `MEM_FILL`. -/
def Memory.read (m : Memory) (addr : Nat) : Byte :=
  match m with
  | [] => Config.memFill
  | (a, v) :: rest => if a = addr then v else Memory.read rest addr

/-- The memory with one more entry in front, unless that entry is what an unlisted cell reads as. -/
def Memory.cons (addr : Nat) (v : Byte) (rest : Memory) : Memory :=
  if v = Config.memFill then rest else (addr, v) :: rest

/-- Store one byte, keeping the canonical form. -/
def Memory.write (m : Memory) (addr : Nat) (v : Byte) : Memory :=
  match m with
  | [] => Memory.cons addr v []
  | (a, w) :: rest =>
    if addr < a then Memory.cons addr v ((a, w) :: rest)
    else if addr = a then Memory.cons addr v rest
    else (a, w) :: Memory.write rest addr v

/-- Store bytes at rising addresses; a byte whose address is outside memory is not stored. -/
def Memory.writeBytes (m : Memory) (addr : Nat) : List Byte → Memory
  | [] => m
  | b :: bs => Memory.writeBytes (if addr < Config.memSize then Memory.write m addr b else m) (addr + 1) bs

/-- The canonical form: addresses strictly rising and inside memory, and no entry equal to what an unlisted cell reads as. -/
abbrev Memory.wf (m : Memory) : Prop :=
  m.Pairwise (fun c d => c.1 < d.1) ∧ ∀ c ∈ m, c.1 < Config.memSize ∧ c.2 ≠ Config.memFill

/-! ## Reductions to a byte -/

/-- A result reduced modulo 256 (R10, 10_state.md R21). -/
def narrow (n : Nat) : Byte := BitVec.ofNat 8 n

/-! ## Registers, pc, output -/

/-- `x[i]`. -/
def State.reg (s : State) (i : Fin Config.nReg) : Byte := s.x[i]

/-- `x[i] <- v`. -/
def State.setReg (s : State) (i : Fin Config.nReg) (v : Byte) : State := { s with x := s.x.set i v }

/-- SP, the alias of x[7] (R22). -/
def State.sp (s : State) : Byte := s.reg Config.spIndex

/-- `pc <- target`. -/
def State.setPc (s : State) (target : Nat) : State := { s with pc := target }

/-- `pc <- pc + n`; pc is never reduced (R25). -/
def State.advance (s : State) (n : Nat) : State := s.setPc (s.pc + n)

/-- `emit(v)`: append the byte to the output stream (R11, R33). -/
def State.emit (s : State) (v : Byte) : State := { s with out := s.out ++ [v] }

/-! ## The stack (41_data_stack_io.md R102) -/

/-- `SP <- (SP - 1) mod 256`. -/
def State.decSp (s : State) : State := s.setReg Config.spIndex (s.sp - 1)

/-- `SP <- (SP + 1) mod 256`. -/
def State.incSp (s : State) : State := s.setReg Config.spIndex (s.sp + 1)

/-- `MemWrite(SP, 1, v)`: SP is 0 to 255, so the address is always inside memory (R44). -/
def State.storeAtSp (s : State) (v : Byte) : State := { s with mem := s.mem.write s.sp.toNat v }

/-- `MemRead(SP, 1)`. -/
def State.loadAtSp (s : State) : Byte := s.mem.read s.sp.toNat

/-! ## Halting and raising (R9, 60_exceptions.md R140, R148) -/

/-- `halt(reason)`: the running flag is cleared and `status` records the reason. -/
def State.halt (s : State) (reason : HaltReason) : State := { s with running := false, status := .halted reason }

/-- `raise E(info)`, taking a fatal fault: the instruction makes no state change and the core halts with status
`E(info)` (R9, R146). There is no trap: no state is saved and control goes nowhere (R148), and there is no return from
one (R149). Faults are precise by the spec's decision D7: log entry 5. -/
def raise (reason : HaltReason) (s : State) : Result := .next (s.halt reason)

/-! ## Fetch (42_control.md R120) -/

/-- The lowest address of the fetch window that lies outside memory, if one does (20_memory.md R44). -/
def outsideWindow (pc : Nat) : Option Nat := [pc, pc + 1, pc + 2].find? (fun a => decide (Config.memSize ≤ a))

/-- The window at pc, whatever pc is: used only where `outsideWindow` finds nothing. -/
def State.window (s : State) : Window :=
  { ir := s.mem.read s.pc, opA := s.mem.read (s.pc + 1), opB := s.mem.read (s.pc + 2) }

/-- The three bytes at pc, pc+1 and pc+2, or the fault of a window that leaves memory. -/
def fetch (s : State) : Except HaltReason Window :=
  match outsideWindow s.pc with
  | some addr => .error (.fetchBoundsFault addr)
  | none => .ok s.window

end Sys2Proof.Machine
end

