-- ==== Sys2Proof/Machine/Flags.lean ====
section
/-! DEFINITION. The flags register `fl` (10_state.md R28 to R30): written whole by CMP alone, its Equal bit read by JEQ
and JNE alone. -/

namespace Sys2Proof.Machine

/-- E alone: bit 0 (R28). -/
def flE : Byte := 0b00000001

/-- G alone: bit 1 (R28). -/
def flG : Byte := 0b00000010

/-- L alone: bit 2 (R28). -/
def flL : Byte := 0b00000100

/-- What CMP writes into `fl`, the unsigned comparison of R85. -/
def compareFlags (va vb : Byte) : Byte :=
  if va.toNat = vb.toNat then flE else if va.toNat > vb.toNat then flG else flL

/-- `fl <- v`. -/
def State.setFl (s : State) (v : Byte) : State := { s with fl := v }

/-- `fl[0] == 1`, the Equal flag (R30). -/
def State.equalFlag (s : State) : Bool := s.fl.getLsbD 0

end Sys2Proof.Machine
end

