-- ==== Sys2Proof/Machine/Operands.lean ====
section
/-! DEFINITION. The one operand form that can fail: an operand byte used as a register index (30_encoding.md R65). The
other form, the immediate of LDI, is the byte itself (R64). -/

namespace Sys2Proof.Machine

/-- The register an operand byte selects: the whole byte, with no masking to 3 bits (R65). -/
def regIndex (b : Byte) : Option (Fin Config.nReg) :=
  if h : b.toNat < Config.nReg then some ⟨b.toNat, h⟩ else none

/-- Use an operand byte as a register index: 8 or more raises `RegIndexFault` (R143), before anything is written (R146). -/
def withReg (field : OperandField) (b : Byte) (s : State) (k : Fin Config.nReg → Result) : Result :=
  match regIndex b with
  | some i => k i
  | none => raise (.regIndexFault field b) s

/-- Use two operand bytes as register indices, `a` before `b` (R147; DESIGN CHOICE of the spec, D19: log entry 13). -/
def withRegs (a b : Byte) (s : State) (k : Fin Config.nReg → Fin Config.nReg → Result) : Result :=
  withReg .a a s fun i => withReg .b b s fun j => k i j

end Sys2Proof.Machine
end

