-- ==== Sys2Proof/Machine/Alu.lean ====
section
/-! DEFINITION. The ALU instructions (40_alu.md R80 to R92). A result is computed exactly on natural numbers and reduced
modulo 256 at the end, for all ten operations alike (R81; the spec's decision D2: log entry 11). -/

namespace Sys2Proof.Machine

/-- R82: `(va + vb) mod 256`. -/
def aluAdd (va vb : Byte) : Byte := narrow (va.toNat + vb.toNat)

/-- R83: `(va * vb) mod 256`. -/
def aluMul (va vb : Byte) : Byte := narrow (va.toNat * vb.toNat)

/-- R84: `va % vb`, used for a nonzero divisor only. -/
def aluMod (va vb : Byte) : Byte := narrow (va.toNat % vb.toNat)

/-- R86. -/
def aluAnd (va vb : Byte) : Byte := narrow (va.toNat &&& vb.toNat)

/-- R87. -/
def aluOr (va vb : Byte) : Byte := narrow (va.toNat ||| vb.toNat)

/-- R88. -/
def aluXor (va vb : Byte) : Byte := narrow (va.toNat ^^^ vb.toNat)

/-- R89: `255 - va`, the one's complement in 8 bits. -/
def aluNot (va : Byte) : Byte := narrow (255 - va.toNat)

/-- R90: `(va << vb) mod 256`; the amount is the whole byte, not reduced. -/
def aluShl (va vb : Byte) : Byte := narrow (va.toNat <<< vb.toNat)

/-- R91: `va >> vb`, logical; the amount is the whole byte, not reduced. -/
def aluShr (va vb : Byte) : Byte := narrow (va.toNat >>> vb.toNat)

/-- A two-register operation (R80): both indices are checked, both registers read, the result written to `x[a]`, pc
advanced by 3. -/
def aluTwo (f : Byte → Byte → Byte) (a b : Byte) (s : State) : Result :=
  withRegs a b s fun i j => .next ((s.setReg i (f (s.reg i) (s.reg j))).advance 3)

/-- ADD, R82. -/
def execAdd (a b : Byte) (s : State) : Result := aluTwo aluAdd a b s

/-- MUL, R83. -/
def execMul (a b : Byte) (s : State) : Result := aluTwo aluMul a b s

/-- MOD, R84. A zero divisor is the clean halt `DivZero` (R144): `x[a]` and `fl` stay, and pc moves by
`DIVZERO_PC_ADVANCE` (the spec's decision D9: log entry 7). -/
def execMod (a b : Byte) (s : State) : Result :=
  withRegs a b s fun i j =>
    if s.reg j = 0 then .next ((s.advance Config.divZeroPcAdvance).halt .divZero)
    else .next ((s.setReg i (aluMod (s.reg i) (s.reg j))).advance 3)

/-- CMP, R85: the one writer of `fl`. -/
def execCmp (a b : Byte) (s : State) : Result :=
  withRegs a b s fun i j => .next ((s.setFl (compareFlags (s.reg i) (s.reg j))).advance 3)

/-- AND, R86. -/
def execAnd (a b : Byte) (s : State) : Result := aluTwo aluAnd a b s

/-- OR, R87. -/
def execOr (a b : Byte) (s : State) : Result := aluTwo aluOr a b s

/-- XOR, R88. -/
def execXor (a b : Byte) (s : State) : Result := aluTwo aluXor a b s

/-- NOT, R89: one operand; `op_b` is neither read nor checked (the spec's decision D8: log entry 6). -/
def execNot (a : Byte) (s : State) : Result :=
  withReg .a a s fun i => .next ((s.setReg i (aluNot (s.reg i))).advance 2)

/-- SHL, R90. -/
def execShl (a b : Byte) (s : State) : Result := aluTwo aluShl a b s

/-- SHR, R91. -/
def execShr (a b : Byte) (s : State) : Result := aluTwo aluShr a b s

end Sys2Proof.Machine
end

