-- ==== Sys2Proof/Machine/Control.lean ====
section
/-! DEFINITION. Control transfer (42_control.md R121 to R128). A target is a whole register value or a popped byte, an
absolute address 0 to 255 (R127). -/

namespace Sys2Proof.Machine

/-- `pc <- x[a]`. -/
def jumpToReg (a : Byte) (s : State) : Result :=
  withReg .a a s fun i => .next (s.setPc (s.reg i).toNat)

/-- HLT, R121. -/
def execHlt (s : State) : Result := .next ((s.advance 1).halt .hlt)

/-- JMP, R122. -/
def execJmp (a : Byte) (s : State) : Result := jumpToReg a s

/-- JEQ, R123: the index is used, and checked, only when the jump is taken (the spec's decision D21: log entry 12). -/
def execJeq (a : Byte) (s : State) : Result :=
  if s.equalFlag then jumpToReg a s else .next (s.advance 2)

/-- JNE, R124: the index is used, and checked, only when the jump is taken (the spec's decision D21: log entry 12). -/
def execJne (a : Byte) (s : State) : Result :=
  if s.equalFlag then .next (s.advance 2) else jumpToReg a s

/-- CALL, R125: the return address pc + 2 is one byte, since an executed CALL has pc at most 253 (R44; log entry 18);
`x[a]` is read after the decrement, so CALL R7 jumps to the decremented SP (log entry 9). -/
def execCall (a : Byte) (s : State) : Result :=
  withReg .a a s fun i => .next ((s.decSp.storeAtSp (narrow (s.pc + 2))).setPc (s.decSp.reg i).toNat)

/-- RET, R126: pops whatever byte is at SP. -/
def execRet (s : State) : Result := .next (s.setPc s.loadAtSp.toNat).incSp

end Sys2Proof.Machine
end

