-- ==== Sys2Proof/Machine/Data.lean ====
section
/-! DEFINITION. Immediate load, stack and output (41_data_stack_io.md R101 to R106). Sub-steps run in the order the rule
gives, each seeing the one before; register 7 is an operand like any other (R22; the spec's decision D12: log entry 9). -/

namespace Sys2Proof.Machine

/-- LDI, R101. -/
def execLdi (a imm : Byte) (s : State) : Result :=
  withReg .a a s fun i => .next ((s.setReg i imm).advance 3)

/-- PUSH, R103: `x[a]` is read after the decrement, so PUSH R7 stores the decremented SP. -/
def execPush (a : Byte) (s : State) : Result :=
  withReg .a a s fun i => .next ((s.decSp.storeAtSp (s.decSp.reg i)).advance 2)

/-- POP, R104: SP is read again after `x[a]` is written, so POP R7 leaves the popped byte plus 1. -/
def execPop (a : Byte) (s : State) : Result :=
  withReg .a a s fun i => .next ((s.setReg i s.loadAtSp).incSp.advance 2)

/-- PRN, R106. -/
def execPrn (a : Byte) (s : State) : Result :=
  withReg .a a s fun i => .next ((s.emit (s.reg i)).advance 2)

end Sys2Proof.Machine
end

