-- ==== Sys2Proof/Machine/Step.lean ====
section
/-! DEFINITION. One step of the core (42_control.md R120), and the placing of an instruction where it is fetched. -/

namespace Sys2Proof.Machine

/-- R120: a state that is not Running has no step (R157); a fetch window that leaves memory and an unknown opcode halt the
core (R141, R142); any other step runs the handler of the fetched window to completion. -/
def step (s : State) : Host.Outcome State Fault Refusal :=
  match s.status with
  | .halted reason => .fault (.coreHalted reason)
  | .running =>
    match fetch s with
    | .error reason => raise reason s
    | .ok w =>
      match decode w with
      | .error (.unknownOpcode ir) => raise (.unknownOpcode ir) s
      | .ok i => exec i s

/-- The state with an instruction's three bytes stored at pc, pc+1 and pc+2, where `step` fetches; a byte whose address is
outside memory has nowhere to stand, and the fetch there faults (R44). It stands for the load of an image (log entry 16). -/
def State.withFetchWord (s : State) (nbits w : Nat) : State :=
  let v := windowOfTableWord nbits w
  { s with mem := s.mem.writeBytes s.pc [v.ir, v.opA, v.opB] }

end Sys2Proof.Machine
end

