-- ==== Sys2Proof/Machine/Loader.lean ====
section
/-! DEFINITION. The interface `image_in` (00_scope.md R11): the byte image placed in memory at reset
(70_reset_and_hazards.md R160 to R162). Reading a program file (30_encoding.md R72) is the loader's, outside the core (R5). -/

namespace Sys2Proof.Machine

/-- Why the core is never started. -/
inductive LoadError where
  /-- The image has more than 256 bytes (R161; DESIGN CHOICE of the spec, D16: log entry 16). Safe. -/
  | imageTooLong
  deriving DecidableEq, Repr

/-- Reset with an image: image byte i at address i, every other piece of state as `State.reset` has it (R36, R160, R161). -/
def resetWithImage (image : List Byte) : Except LoadError State :=
  if image.length ≤ Config.memSize then .ok { State.reset with mem := State.reset.mem.writeBytes 0 image }
  else .error .imageTooLong

end Sys2Proof.Machine
end

