-- ==== Sys2Proof/Machine/HostView.lean ====
section
/-! DEFINITION. What the host reads when a run ends (00_scope.md R12, 60_exceptions.md R140, R157): numeric codes, the
kind of end, the process's exit codes (a load failure's among them), and the rendering of the output stream. No instruction reads any of it. -/

namespace Sys2Proof.Machine

/-- The code column of R140 (DESIGN CHOICE of the spec, D10: log entry 8). -/
def Status.code : Status → Nat
  | .running => 0
  | .halted .hlt => 1
  | .halted .divZero => 2
  | .halted (.unknownOpcode _) => 3
  | .halted (.fetchBoundsFault _) => 4
  | .halted (.regIndexFault _ _) => 5

/-- The kind column of R140: a clean halt, not a fatal fault. -/
def HaltReason.isClean : HaltReason → Bool
  | .hlt | .divZero => true
  | .unknownOpcode _ | .fetchBoundsFault _ | .regIndexFault _ _ => false

/-- The host exit code column of R140; after a bounds fault it is OPEN and nonzero (log entry 8). -/
def HaltReason.exitCode : HaltReason → Nat
  | .hlt => Config.hltExitCode
  | .divZero => Config.divZeroExitCode
  | .unknownOpcode _ => Config.unknownOpcodeExitCode
  | .fetchBoundsFault _ => Config.boundsExitCode
  | .regIndexFault _ _ => Config.boundsExitCode

/-- The host's exit code when the core is never started (R12: "1 on load failure"). -/
def LoadError.exitCode : LoadError → Nat
  | .imageTooLong => Config.loadFailureExitCode

/-- The exit code of the host's process (R12): of a load failure, or of the status the core ended in; a core that is
still running has ended no process. -/
def processExitCode : Except LoadError Status → Option Nat
  | .error e => some e.exitCode
  | .ok .running => none
  | .ok (.halted reason) => some reason.exitCode

/-- The lines the host shows, one decimal number per emitted byte (DESIGN CHOICE of the spec, D11: log entry 15). -/
def State.renderedOut (s : State) : List String := s.out.map fun b => toString b.toNat

end Sys2Proof.Machine
end

