-- ==== Sys2Proof/Safety.lean ====
section
/-! DEFINITION. What claims are said in: what a legal state is, what a run reaches, and what a safe run is. -/

namespace Sys2Proof.Machine

/-- The information of a halt reason is one that R140 allows: an opcode byte outside the table, the address 256, an
operand byte of 8 or more. -/
def HaltReason.legal : HaltReason → Prop
  | .hlt => True
  | .divZero => True
  | .unknownOpcode ir => ∀ i : Instr, opcode i ≠ ir
  | .fetchBoundsFault addr => addr = 256
  | .regIndexFault _ value => 8 ≤ value.toNat

/-- The states the spec allows. -/
structure State.Inv (s : State) : Prop where
  /-- Memory is in its canonical form. -/
  memWf : s.mem.wf
  /-- pc is 0 to 256 (10_state.md R25). -/
  pcRange : s.pc ≤ 256
  /-- `fl` is 0, 1, 2 or 4 (R29), so bits 7:3 are 0 (R28). -/
  flOneHot : s.fl = 0 ∨ s.fl = flE ∨ s.fl = flG ∨ s.fl = flL
  /-- `status` is Running exactly while `running` is true (R32). -/
  statusAgrees : s.running = true ↔ s.status = .running
  /-- A halt records one of the five reasons with legal information (R140). -/
  reasonLegal : ∀ r, s.status = .halted r → r.legal

/-- `t` is the state after some number of steps from `s`. -/
def Reaches (s t : State) : Prop := ∃ n, core.run n s = .next t

/-- A safe run never ends in a fatal fault: wherever it halts, the halt is clean (R140, R157). -/
def SafeRun (s : State) : Prop := ∀ t r, Reaches s t → t.status = .halted r → r.isClean = true

/-- Handlers run one after the other, each on the state the one before left. -/
def execAll : List Instr → State → Result
  | [], s => .next s
  | i :: is, s =>
    match exec i s with
    | .next t => execAll is t
    | .fault f => .fault f
    | .refused r => .refused r

end Sys2Proof.Machine
end

