-- ==== Sys2Proof/Certificates/Slice0/Obligations.lean ====
section
/-! DEFINITION. The statements for the provers, from the numbered rules of spec/. A docstring names the rule or the
sections a statement rests on, and says where it rests on one of the spec's own decisions (92_eei_decisions.md). -/

open Sys2Proof Sys2Proof.Machine

/-! ## Shapes the statements share -/

/-- The instruction ends in a next state that has halted with a `RegIndexFault`; which field it names and what else the
state holds is not said here. -/
def RaisesRegIndexFault (i : Instr) (s : State) : Prop :=
  ∃ t field value, exec i s = .next t ∧ t.status = .halted (.regIndexFault field value) ∧ t.running = false

/-- The instruction ends in a next state that has halted with the `RegIndexFault` of that field and operand byte; what
else the state holds is not said here. -/
def RaisesRegIndexFaultOf (field : OperandField) (value : Byte) (i : Instr) (s : State) : Prop :=
  ∃ t, exec i s = .next t ∧ t.status = .halted (.regIndexFault field value) ∧ t.running = false

/-- What two register-index bytes do when they are not both below 8: the one bad byte is named with its field; with two
bad bytes there is a `RegIndexFault`, and which field it names (the spec's decision D19) is not said here. -/
def ChecksBothIndices (a b : Byte) (i : Instr) (s : State) : Prop :=
  (8 ≤ a.toNat ∧ b.toNat < 8 → RaisesRegIndexFaultOf .a a i s) ∧
  (a.toNat < 8 ∧ 8 ≤ b.toNat → RaisesRegIndexFaultOf .b b i s) ∧
  (8 ≤ a.toNat ∧ 8 ≤ b.toNat → RaisesRegIndexFault i s)

/-- The whole rule of a two-register ALU operation whose result on natural numbers is `f`: its encoding, its result in
`x[a]` and in no other register, pc + 3, nothing else changed, and `RegIndexFault` when an index is 8 or more. -/
def TwoRegisterRule (mk : Byte → Byte → Instr) (code : Byte) (f : Nat → Nat → Nat) : Prop :=
  ∀ (a b : Byte) (s : State),
    (encode (mk a b) = [code, a, b] ∧ decode ⟨code, a, b⟩ = .ok (mk a b)) ∧
    (∀ (ha : a.toNat < 8) (hb : b.toNat < 8), ∃ t, exec (mk a b) s = .next t ∧
      (t.reg ⟨a.toNat, ha⟩).toNat = f (s.reg ⟨a.toNat, ha⟩).toNat (s.reg ⟨b.toNat, hb⟩).toNat ∧
      (∀ k : Fin 8, k.val ≠ a.toNat → t.reg k = s.reg k) ∧
      t.pc = s.pc + 3 ∧ t = { s with x := t.x, pc := t.pc }) ∧
    ChecksBothIndices a b (mk a b) s

/-- An instruction with one register index, which it always uses, stops by `RegIndexFault(a)` when that byte is 8 or more. -/
def ChecksIndex (mk : Byte → Instr) : Prop :=
  ∀ (a : Byte) (s : State), 8 ≤ a.toNat → RaisesRegIndexFaultOf .a a (mk a) s

/-- Format A (30_encoding.md R62): the encoder writes the opcode and the index, and the decoder ignores the third byte. -/
def FormatA (mk : Byte → Instr) (code : Byte) : Prop :=
  ∀ a b : Byte, encode (mk a) = [code, a] ∧ decode ⟨code, a, b⟩ = .ok (mk a)

/-- Format Z (30_encoding.md R61): the encoder writes the opcode, and the decoder ignores the other two bytes. -/
def FormatZ (i : Instr) (code : Byte) : Prop :=
  encode i = [code] ∧ ∀ a b : Byte, decode ⟨code, a, b⟩ = .ok i

/-- The halting bits are as they were, or the core has halted. -/
def SameStatusOrHalted (s t : State) : Prop :=
  (t.status = s.status ∧ t.running = s.running) ∨ (t.running = false ∧ ∃ r, t.status = .halted r)

/-- Every byte of memory reads as before. -/
def SameMemory (s t : State) : Prop := ∀ addr, t.mem.read addr = s.mem.read addr

/-! ## The ALU (40_alu.md) -/

/-- 40_alu.md R82, whole. -/
def Obligations.AddWritesSumModulo256 : Prop :=
  TwoRegisterRule .add 0b10100000 fun va vb => (va + vb) % 256

/-- 40_alu.md R83, whole. -/
def Obligations.MulWritesLowByteOfProduct : Prop :=
  TwoRegisterRule .mul 0b10100010 fun va vb => va * vb % 256

/-- MOD (40_alu.md section 2): the natural-number remainder, or the clean halt `DivZero` with `x[a]` and `fl` kept. That
pc still moves by 3 at the halt is the spec's own decision D9 (log entry 7). -/
def Obligations.ModWritesRemainderOrHaltsOnZero : Prop :=
  ∀ (a b : Byte) (s : State),
    (encode (.mod a b) = [0b10100100, a, b] ∧ decode ⟨0b10100100, a, b⟩ = .ok (.mod a b)) ∧
    (∀ (ha : a.toNat < 8) (hb : b.toNat < 8),
      (s.reg ⟨b.toNat, hb⟩ ≠ 0 → ∃ t q, exec (.mod a b) s = .next t ∧
        (s.reg ⟨a.toNat, ha⟩).toNat = q * (s.reg ⟨b.toNat, hb⟩).toNat + (t.reg ⟨a.toNat, ha⟩).toNat ∧
        (t.reg ⟨a.toNat, ha⟩).toNat < (s.reg ⟨b.toNat, hb⟩).toNat ∧
        (∀ k : Fin 8, k.val ≠ a.toNat → t.reg k = s.reg k) ∧
        t.pc = s.pc + 3 ∧ t = { s with x := t.x, pc := t.pc }) ∧
      (s.reg ⟨b.toNat, hb⟩ = 0 → exec (.mod a b) s =
        .next { s with pc := s.pc + 3, running := false, status := .halted .divZero })) ∧
    ChecksBothIndices a b (.mod a b) s

/-- 40_alu.md R85, whole: exactly one of E, G, L by unsigned order, no register written, and no other instruction
writes `fl`. -/
def Obligations.CmpSetsExactlyOneFlagByUnsignedOrder : Prop :=
  (∀ (a b : Byte) (s : State),
    (encode (.cmp a b) = [0b10100111, a, b] ∧ decode ⟨0b10100111, a, b⟩ = .ok (.cmp a b)) ∧
    (∀ (ha : a.toNat < 8) (hb : b.toNat < 8), ∃ t, exec (.cmp a b) s = .next t ∧
      (t.fl = 1 ↔ (s.reg ⟨a.toNat, ha⟩).toNat = (s.reg ⟨b.toNat, hb⟩).toNat) ∧
      (t.fl = 2 ↔ (s.reg ⟨a.toNat, ha⟩).toNat > (s.reg ⟨b.toNat, hb⟩).toNat) ∧
      (t.fl = 4 ↔ (s.reg ⟨a.toNat, ha⟩).toNat < (s.reg ⟨b.toNat, hb⟩).toNat) ∧
      t.pc = s.pc + 3 ∧ t = { s with fl := t.fl, pc := t.pc }) ∧
    ChecksBothIndices a b (.cmp a b) s) ∧
  (∀ (i : Instr) (s t : State), exec i s = .next t → t.fl ≠ s.fl → ∃ a b, i = .cmp a b)

/-- 40_alu.md R86, whole. -/
def Obligations.AndWritesBitwiseAnd : Prop :=
  TwoRegisterRule .and 0b10101000 fun va vb => Nat.land va vb

/-- 40_alu.md R87, whole. -/
def Obligations.OrWritesBitwiseOr : Prop :=
  TwoRegisterRule .or 0b10101010 fun va vb => Nat.lor va vb

/-- 40_alu.md R88, whole. -/
def Obligations.XorWritesBitwiseXor : Prop :=
  TwoRegisterRule .xor 0b10101011 fun va vb => Nat.xor va vb

/-- NOT (40_alu.md section 2): 255 - va, masked to 8 bits (the spec's decision D2, log entry 11); the third byte of the
window is neither read nor checked (decision D8, log entry 6). -/
def Obligations.NotWritesOnesComplement : Prop :=
  FormatA .not 0b01101001 ∧ ChecksIndex .not ∧
  ∀ (a : Byte) (s : State) (ha : a.toNat < 8), ∃ t, exec (.not a) s = .next t ∧
    (t.reg ⟨a.toNat, ha⟩).toNat + (s.reg ⟨a.toNat, ha⟩).toNat = 255 ∧
    (∀ k : Fin 8, k.val ≠ a.toNat → t.reg k = s.reg k) ∧
    t.pc = s.pc + 2 ∧ t = { s with x := t.x, pc := t.pc }

/-- SHL (40_alu.md section 2), the amount not reduced, the result masked (the spec's decision D2, log entry 11). -/
def Obligations.ShlMultipliesByPowerOfTwoModulo256 : Prop :=
  TwoRegisterRule .shl 0b10101100 fun va vb => va * 2 ^ vb % 256

/-- 40_alu.md R91, whole: a logical shift by the whole byte is a division by a power of two. -/
def Obligations.ShrDividesByPowerOfTwo : Prop :=
  TwoRegisterRule .shr 0b10101101 fun va vb => va / 2 ^ vb

/-- 40_alu.md section 3: a shift by the width or more clears the register (amounts 8 to 255), and SHR or XOR of a register
with itself clears it. That SHL by 8 or more leaves 0 is the spec's masking decision D2 (log entry 11): an unmasked SHL
would leave a value above 255. -/
def Obligations.WideShiftsAndSelfXorClearTheRegister : Prop :=
  ∀ (a b : Byte) (s : State) (ha : a.toNat < 8) (hb : b.toNat < 8),
    (8 ≤ (s.reg ⟨b.toNat, hb⟩).toNat →
      (∃ t, exec (.shl a b) s = .next t ∧ t.reg ⟨a.toNat, ha⟩ = 0) ∧
      (∃ t, exec (.shr a b) s = .next t ∧ t.reg ⟨a.toNat, ha⟩ = 0)) ∧
    (∃ t, exec (.shr a a) s = .next t ∧ t.reg ⟨a.toNat, ha⟩ = 0) ∧
    (∃ t, exec (.xor a a) s = .next t ∧ t.reg ⟨a.toNat, ha⟩ = 0)

/-! ## Immediate load, stack, output (41_data_stack_io.md) -/

/-- 41_data_stack_io.md R101, whole. -/
def Obligations.LdiWritesTheImmediate : Prop :=
  ∀ (a imm : Byte) (s : State),
    (encode (.ldi a imm) = [0b10000010, a, imm] ∧ decode ⟨0b10000010, a, imm⟩ = .ok (.ldi a imm)) ∧
    (∀ ha : a.toNat < 8, ∃ t, exec (.ldi a imm) s = .next t ∧
      t.reg ⟨a.toNat, ha⟩ = imm ∧ (∀ k : Fin 8, k.val ≠ a.toNat → t.reg k = s.reg k) ∧
      t.pc = s.pc + 3 ∧ t = { s with x := t.x, pc := t.pc }) ∧
    (8 ≤ a.toNat → RaisesRegIndexFaultOf .a a (.ldi a imm) s)

/-- PUSH (41_data_stack_io.md section 2): SP decremented modulo 256 (the spec's decision D3, log entry 14), then the
register read and stored at the new SP, so PUSH R7 stores the decremented SP (decision D12, log entry 9). -/
def Obligations.PushStoresBelowTheStackPointer : Prop :=
  FormatA .push 0b01000101 ∧ ChecksIndex .push ∧
  ∀ (a : Byte) (s : State) (ha : a.toNat < 8), s.mem.wf → ∃ t, exec (.push a) s = .next t ∧
    t.sp.toNat = (s.sp.toNat + 255) % 256 ∧
    (∀ k : Fin 8, k.val ≠ 7 → t.reg k = s.reg k) ∧
    (t.mem.read t.sp.toNat).toNat =
      (if a.toNat = 7 then (s.sp.toNat + 255) % 256 else (s.reg ⟨a.toNat, ha⟩).toNat) ∧
    (∀ addr, addr ≠ (s.sp.toNat + 255) % 256 → t.mem.read addr = s.mem.read addr) ∧
    t.pc = s.pc + 2 ∧ t = { s with mem := t.mem, x := t.x, pc := t.pc }

/-- POP (41_data_stack_io.md section 2): the byte at SP goes to the register, then SP is incremented modulo 256 (the
spec's decision D3, log entry 14), so POP R7 leaves the popped byte plus 1 (decision D12, log entry 9). -/
def Obligations.PopLoadsFromTheStackPointer : Prop :=
  FormatA .pop 0b01000110 ∧ ChecksIndex .pop ∧
  ∀ (a : Byte) (s : State) (ha : a.toNat < 8), ∃ t, exec (.pop a) s = .next t ∧
    (a.toNat ≠ 7 → t.reg ⟨a.toNat, ha⟩ = s.mem.read s.sp.toNat ∧ t.sp.toNat = (s.sp.toNat + 1) % 256) ∧
    (a.toNat = 7 → t.sp.toNat = ((s.mem.read s.sp.toNat).toNat + 1) % 256) ∧
    (∀ k : Fin 8, k.val ≠ 7 → k.val ≠ a.toNat → t.reg k = s.reg k) ∧
    t.pc = s.pc + 2 ∧ t = { s with x := t.x, pc := t.pc }

/-- PRN (41_data_stack_io.md section 3): the byte is appended to `out`; that `out` is a stream of bytes is the spec's
decision D11 (log entry 15). -/
def Obligations.PrnAppendsTheRegister : Prop :=
  FormatA .prn 0b01000111 ∧ ChecksIndex .prn ∧
  ∀ (a : Byte) (s : State) (ha : a.toNat < 8),
    exec (.prn a) s = .next { s with out := s.out ++ [s.reg ⟨a.toNat, ha⟩], pc := s.pc + 2 }

/-! ## Control transfer (42_control.md) -/

/-- 42_control.md R121, whole: HLT halts with pc after it, the host exits with 0, and an HLT at 254 or 255 never executes
because its fetch faults. -/
def Obligations.HltHaltsAfterItself : Prop :=
  FormatZ .hlt 0b00000001 ∧ HaltReason.exitCode .hlt = 0 ∧
  (∀ s : State, exec .hlt s = .next { s with pc := s.pc + 1, running := false, status := .halted .hlt }) ∧
  (∀ s : State, s.status = .running → s.pc = 254 ∨ s.pc = 255 →
    ∃ t, step s = .next t ∧ t.status = .halted (.fetchBoundsFault 256))

/-- 42_control.md R122, whole: any target is taken; a target of 254 or 255 makes the next fetch fault; JMP to its own
address loops. -/
def Obligations.JmpTakesTheWholeRegister : Prop :=
  FormatA .jmp 0b01010100 ∧ ChecksIndex .jmp ∧
  ∀ (a : Byte) (s : State) (ha : a.toNat < 8), ∃ t, exec (.jmp a) s = .next t ∧
    t = { s with pc := (s.reg ⟨a.toNat, ha⟩).toNat } ∧
    (s.status = .running → 254 ≤ (s.reg ⟨a.toNat, ha⟩).toNat →
      ∃ u, step t = .next u ∧ u.status = .halted (.fetchBoundsFault 256)) ∧
    (s.status = .running → s.pc ≤ 253 → decode s.window = .ok (.jmp a) →
      (s.reg ⟨a.toNat, ha⟩).toNat = s.pc → step s = .next s)

/-- JEQ (42_control.md section 2): taken exactly when bit 0 of `fl` is 1. That the index is not checked when the jump is
not taken is the spec's decision D21 (log entry 12). -/
def Obligations.JeqJumpsWhenEqualIsSet : Prop :=
  FormatA .jeq 0b01010101 ∧
  ∀ (a : Byte) (s : State),
    (s.fl.toNat % 2 = 1 → ∀ ha : a.toNat < 8,
      exec (.jeq a) s = .next { s with pc := (s.reg ⟨a.toNat, ha⟩).toNat }) ∧
    (s.fl.toNat % 2 = 1 → 8 ≤ a.toNat → RaisesRegIndexFaultOf .a a (.jeq a) s) ∧
    (s.fl.toNat % 2 = 0 → exec (.jeq a) s = .next { s with pc := s.pc + 2 })

/-- JNE (42_control.md section 2): taken exactly when bit 0 of `fl` is 0. That the index is not checked when the jump is
not taken is the spec's decision D21 (log entry 12). -/
def Obligations.JneJumpsWhenEqualIsClear : Prop :=
  FormatA .jne 0b01010110 ∧
  ∀ (a : Byte) (s : State),
    (s.fl.toNat % 2 = 0 → ∀ ha : a.toNat < 8,
      exec (.jne a) s = .next { s with pc := (s.reg ⟨a.toNat, ha⟩).toNat }) ∧
    (s.fl.toNat % 2 = 0 → 8 ≤ a.toNat → RaisesRegIndexFaultOf .a a (.jne a) s) ∧
    (s.fl.toNat % 2 = 1 → exec (.jne a) s = .next { s with pc := s.pc + 2 })

/-- CALL (42_control.md section 2): pc + 2 pushed, then the jump, the register read after the decrement (the spec's
decision D12, log entry 9; SP wraps by decision D3, log entry 14). pc is that of an executed instruction (20_memory.md
section 1): at most 253. -/
def Obligations.CallPushesReturnAddressAndJumps : Prop :=
  FormatA .call 0b01010000 ∧ ChecksIndex .call ∧
  ∀ (a : Byte) (s : State) (ha : a.toNat < 8), s.mem.wf → s.pc ≤ 253 → ∃ t, exec (.call a) s = .next t ∧
    t.sp.toNat = (s.sp.toNat + 255) % 256 ∧
    (∀ k : Fin 8, k.val ≠ 7 → t.reg k = s.reg k) ∧
    (t.mem.read t.sp.toNat).toNat = s.pc + 2 ∧
    (∀ addr, addr ≠ (s.sp.toNat + 255) % 256 → t.mem.read addr = s.mem.read addr) ∧
    t.pc = (if a.toNat = 7 then (s.sp.toNat + 255) % 256 else (s.reg ⟨a.toNat, ha⟩).toNat) ∧
    t = { s with mem := t.mem, x := t.x, pc := t.pc }

/-- RET (42_control.md section 2): whatever byte is at SP goes to pc, and SP is incremented modulo 256 (the spec's
decision D3, log entry 14). -/
def Obligations.RetPopsIntoThePc : Prop :=
  FormatZ .ret 0b00010001 ∧
  ∀ s : State, ∃ t, exec .ret s = .next t ∧
    t.pc = (s.mem.read s.sp.toNat).toNat ∧
    t.sp.toNat = (s.sp.toNat + 1) % 256 ∧
    (∀ k : Fin 8, k.val ≠ 7 → t.reg k = s.reg k) ∧ t = { s with x := t.x, pc := t.pc }

/-! ## Frames -/

/-- The destination register's index byte, of the instructions that write one register and nothing else (10_state.md
section 2). -/
def writesOnlyRegister : Instr → Option Byte
  | .ldi a _ | .not a | .add a _ | .mul a _ | .mod a _ | .and a _ | .or a _ | .xor a _ | .shl a _ | .shr a _ => some a
  | .hlt | .ret | .push _ | .pop _ | .prn _ | .call _ | .jmp _ | .jeq _ | .jne _ | .cmp _ _ => none

/-- Frame of LDI, NOT, ADD, MUL, MOD, AND, OR, XOR, SHL, SHR (10_state.md sections 2 and 4, 20_memory.md section 1). It covers the next state of a `RegIndexFault` too, where it is
the spec's decision D7 (log entry 5). -/
def Obligations.RegisterInstructionsChangeOneRegister : Prop :=
  ∀ (i : Instr) (a : Byte) (s t : State), writesOnlyRegister i = some a → exec i s = .next t →
    (∀ k : Fin 8, k.val ≠ a.toNat → t.reg k = s.reg k) ∧
    t.fl = s.fl ∧ t.out = s.out ∧ SameMemory s t ∧ SameStatusOrHalted s t

/-- Frame of CMP, PRN, HLT, JMP, JEQ, JNE: no register, no byte of memory; `fl` by CMP alone, `out` by PRN alone
(10_state.md sections 2, 4 and 5, 20_memory.md section 1). It covers the next state of a `RegIndexFault` too, where it is
the spec's decision D7 (log entry 5). -/
def Obligations.CompareOutputAndJumpsKeepRegistersAndMemory : Prop :=
  ∀ (i : Instr) (s t : State), exec i s = .next t →
    ((∃ a b, i = .cmp a b) ∨ (∃ a, i = .prn a) ∨ i = .hlt ∨ (∃ a, i = .jmp a) ∨ (∃ a, i = .jeq a) ∨ (∃ a, i = .jne a)) →
    (∀ k, t.reg k = s.reg k) ∧ SameMemory s t ∧
    ((¬ ∃ a b, i = .cmp a b) → t.fl = s.fl) ∧ ((¬ ∃ a, i = .prn a) → t.out = s.out) ∧ SameStatusOrHalted s t

/-- Frame of PUSH and CALL: SP is the only register they write, and the byte at the address the meaning computes (SP after
its decrement) the only byte of memory (10_state.md section 2, 20_memory.md section 1). It covers the next state of a
`RegIndexFault` too, where it is the spec's decision D7 (log entry 5); the address wraps by decision D3 (log entry 14). -/
def Obligations.PushAndCallStoreOnlyAtTheNewStackPointer : Prop :=
  ∀ (a : Byte) (i : Instr) (s t : State), i = .push a ∨ i = .call a → exec i s = .next t →
    (∀ addr, addr ≠ s.decSp.sp.toNat → t.mem.read addr = s.mem.read addr) ∧
    (∀ k : Fin 8, k.val ≠ 7 → t.reg k = s.reg k) ∧
    t.fl = s.fl ∧ t.out = s.out ∧ SameStatusOrHalted s t

/-- Frame of POP and RET: SP and POP's destination are the only registers they write, and they store nothing
(10_state.md section 2, 20_memory.md section 1). It covers the next state of POP's `RegIndexFault` too, where it is the
spec's decision D7 (log entry 5). -/
def Obligations.PopAndRetStoreNothing : Prop :=
  (∀ (a : Byte) (s t : State), exec (.pop a) s = .next t →
    (∀ k : Fin 8, k.val ≠ 7 → k.val ≠ a.toNat → t.reg k = s.reg k) ∧
    SameMemory s t ∧ t.fl = s.fl ∧ t.out = s.out ∧ SameStatusOrHalted s t) ∧
  (∀ s t : State, exec .ret s = .next t →
    (∀ k : Fin 8, k.val ≠ 7 → t.reg k = s.reg k) ∧
    SameMemory s t ∧ t.fl = s.fl ∧ t.out = s.out ∧ t.status = s.status ∧ t.running = s.running)

/-! ## The stack as a whole -/

/-- PUSH then POP of one register, register 7 included, restores every register, and changes only the cell pushed to
(41_data_stack_io.md section 2, an inference the spec marks as its own; for register 7 it rests on decision D12, log entry 9, and across the wrap of SP on decision D3, log entry 14). -/
def Obligations.PushThenPopRestoresEveryRegister : Prop :=
  ∀ (a : Byte) (s : State), a.toNat < 8 → s.mem.wf → ∃ t, execAll [.push a, .pop a] s = .next t ∧
    (∀ k, t.reg k = s.reg k) ∧ t.fl = s.fl ∧ t.out = s.out ∧ t.status = s.status ∧
    (∀ addr, addr ≠ s.decSp.sp.toNat → t.mem.read addr = s.mem.read addr)

/-- PUSH Rr then POP Rs copies x[r] into x[s] for s other than 7, r being 7 excepted, where the byte is the decremented
SP, SP - 1 modulo 256 (41_data_stack_io.md section 2; register 7 by decision D12, log entry 9; the value 255 at SP = 0 by
decision D3, log entry 14). -/
def Obligations.PushThenPopCopiesARegister : Prop :=
  ∀ (a b : Byte) (s : State) (ha : a.toNat < 8) (hb : b.toNat < 7), s.mem.wf →
    ∃ t, execAll [.push a, .pop b] s = .next t ∧
      t.reg ⟨b.toNat, hb.trans (by decide)⟩ =
        (if a.toNat = 7 then s.sp - 1 else s.reg ⟨a.toNat, ha⟩) ∧
      (∀ k : Fin 8, k.val ≠ b.toNat → t.reg k = s.reg k)

/-- The stack is last in, first out: any list of at most 256 registers other than 7, pushed and then popped in reverse
order, leaves every register as it was, even across the wrap of SP (41_data_stack_io.md section 2; decision D3, log
entry 14; that pc counts on without wrapping is decision D13, log entry 10). -/
def Obligations.StackIsLastInFirstOut : Prop :=
  ∀ (rs : List Byte) (s : State), (∀ r ∈ rs, r.toNat < 7) → rs.length ≤ 256 → s.mem.wf →
    ∃ t, execAll (rs.map .push ++ rs.reverse.map .pop) s = .next t ∧
      (∀ k, t.reg k = s.reg k) ∧ t.fl = s.fl ∧ t.out = s.out ∧ t.status = s.status ∧
      t.pc = s.pc + 4 * rs.length

/-- A run of pushes fills memory downward modulo 256: the k-th pushed byte stands at SP - 1 - k until a push 256 places
later overwrites it (41_data_stack_io.md section 2; decision D3, log entry 14). -/
def Obligations.PushesFillDownwardAndWrap : Prop :=
  ∀ (rs : List Byte) (s : State), (∀ r ∈ rs, r.toNat < 7) → s.mem.wf →
    ∃ t, execAll (rs.map .push) s = .next t ∧
      (t.sp.toNat + rs.length) % 256 = s.sp.toNat ∧
      (∀ k : Fin 8, k.val ≠ 7 → t.reg k = s.reg k) ∧
      ∀ (k : Nat) (r : Byte) (hr : r.toNat < 8), rs[k]? = some r → rs.length ≤ k + 256 →
        ∀ addr < 256, (addr + 1 + k) % 256 = s.sp.toNat → t.mem.read addr = s.reg ⟨r.toNat, hr⟩

/-- CALL, then anything that leaves SP and the cell at SP as it found them, then RET: execution resumes at the CALL's
address plus 2 with SP as before the CALL (42_control.md section 3, an inference the spec marks as its own). Across the
wrap of SP it rests on the spec's decision D3 (log entry 14). -/
def Obligations.RetResumesAfterItsCall : Prop :=
  ∀ (a : Byte) (s t u v : State), a.toNat < 8 → s.mem.wf → s.pc ≤ 253 → exec (.call a) s = .next t →
    u.sp = t.sp → u.mem.read u.sp.toNat = t.mem.read t.sp.toNat → exec .ret u = .next v →
    v.pc = s.pc + 2 ∧ v.sp = s.sp ∧ (∀ k : Fin 8, k.val ≠ 7 → v.reg k = u.reg k) ∧ SameMemory u v

/-! ## Fetch, decode, step -/

/-- A step whose window lies inside memory runs the instruction the window decodes to, on the state before it: the
operands are those of the window read before the handler writes anything (42_control.md section 1, 20_memory.md
section 3). The handler itself sets pc; nothing is added around exec. -/
def Obligations.StepRunsTheDecodedInstruction : Prop :=
  ∀ (s : State) (i : Instr), s.status = .running → s.pc ≤ 253 →
    decode ⟨s.mem.read s.pc, s.mem.read (s.pc + 1), s.mem.read (s.pc + 2)⟩ = .ok i → step s = exec i s

/-- From pc 254 up, the fetch halts the core with the lowest address outside memory, whatever the opcode byte is, and
nothing else changes (20_memory.md section 1, 60_exceptions.md section 2; decisions D7 and D13, log entries 5 and 10). -/
def Obligations.FetchOutsideMemoryHaltsBeforeDecoding : Prop :=
  ∀ s : State, s.status = .running → 254 ≤ s.pc →
    step s = .next { s with running := false, status := .halted (.fetchBoundsFault (max s.pc 256)) }

/-- 30_encoding.md R69, whole: 236 of the 256 opcode bytes, 0 among them, are illegal, and fetching one stops the core
with that byte recorded; a legal opcode decodes with any operand bytes; a register index of 8 or more faults when used
(JEQ and JNE use theirs when taken). -/
def Obligations.OtherOpcodesAreUnknownAndStopTheCore : Prop :=
  ((List.range 256).filter fun n => (decode ⟨BitVec.ofNat 8 n, 0, 0⟩).toOption.isNone).length = 236 ∧
  (∀ w w' : Window, w.ir = w'.ir → (decode w).toOption.isSome = (decode w').toOption.isSome) ∧
  (decode ⟨0, 0, 0⟩).toOption = none ∧
  (∀ s : State, s.status = .running → s.pc ≤ 253 → (decode s.window).toOption = none →
    ∃ t, step s = .next t ∧ t.status = .halted (.unknownOpcode (s.mem.read s.pc)) ∧ t.running = false) ∧
  (∀ (i : Instr) (s : State), i.wellFormed = false → (∀ a, i ≠ .jeq a) → (∀ a, i ≠ .jne a) → RaisesRegIndexFault i s)

/-- 60_exceptions.md section 2 (the source's own words for an unknown opcode): the state observable before the fatal fetch
is unchanged after it, but for `running` and `status`, and the host exits nonzero. -/
def Obligations.UnknownOpcodeChangesNothingElse : Prop :=
  ∀ (s t : State) (ir : Byte), s.status = .running → step s = .next t → t.status = .halted (.unknownOpcode ir) →
    t = { s with running := false, status := t.status } ∧ ir = s.mem.read s.pc ∧
    (∀ i, opcode i ≠ ir) ∧ HaltReason.exitCode (.unknownOpcode ir) ≠ 0

/-- A `RegIndexFault` is precise and names the first bad field: it changes `running` and `status` alone, the value it
records is that operand byte, and field b is named only if the first byte is a register (60_exceptions.md section 2;
decisions D7 and D19, log entries 5 and 13; that NOT has no second index is decision D8, log entry 6). -/
def Obligations.RegIndexFaultIsPreciseAndNamesTheFirstBadField : Prop :=
  ∀ (i : Instr) (s t : State) (field : OperandField) (value : Byte), s.status = .running → exec i s = .next t →
    t.status = .halted (.regIndexFault field value) →
    t = { s with running := false, status := t.status } ∧ 8 ≤ value.toNat ∧
    (field = .a → i.registerOperands.head? = some value) ∧
    (field = .b → ∃ first, i.registerOperands = [first, value] ∧ first.toNat < 8)

/-- A halted core has no step, and a run through a halted state goes no further (60_exceptions.md sections 3 and 6). That
this is a fault of the model, `coreHalted`, is the model's reading (log entry 4). -/
def Obligations.HaltedStateHasNoStep : Prop :=
  ∀ (s : State) (r : HaltReason), s.status = .halted r →
    step s = .fault (.coreHalted r) ∧ ∀ n, 0 < n → core.run n s = .fault (.coreHalted r)

/-- Every opcode, operand and address is given a next state: a running core always steps, and is never refused
(42_control.md section 1, 60_exceptions.md section 1; that fatal faults are next states is the model's reading, log entry
4, with the states decisions D7 and D13 give, log entries 5 and 10). -/
def Obligations.RunningCoreAlwaysSteps : Prop :=
  ∀ s : State, (∃ t, step s = .next t) ↔ s.status = .running

/-- A well-formed instruction completes with no fault: it leaves a running core running, or it is HLT, or MOD by zero
(60_exceptions.md sections 1 and 2). That NOT has no second index is the spec's decision D8 (log entry 6), and that an
instruction which writes register 7 runs like any other is decision D12 (log entry 9). -/
def Obligations.WellFormedInstructionsNeverFault : Prop :=
  ∀ (i : Instr) (s : State), i.wellFormed = true → s.status = .running → ∃ t, exec i s = .next t ∧
    (t.status = .running ∨ (i = .hlt ∧ t.status = .halted .hlt) ∨
      (∃ a b, ∃ hb : b.toNat < 8, i = .mod a b ∧ s.reg ⟨b.toNat, hb⟩ = 0 ∧ t.status = .halted .divZero))

/-- Each reason is recorded by its own cause, and there is no sixth (60_exceptions.md sections 1 and 2). The cause of a
`FetchBoundsFault`, and the address it records, which is pc itself above 256, rest on the spec's decision D13 (log entry
10); that the cause of a `RegIndexFault` is never NOT's third byte is decision D8 (log entry 6). -/
def Obligations.EveryHaltHasItsCause : Prop :=
  ∀ (s t : State) (r : HaltReason), step s = .next t → t.status = .halted r →
    match r with
    | .hlt => decode s.window = .ok .hlt
    | .divZero => ∃ a b, ∃ hb : b.toNat < 8, decode s.window = .ok (.mod a b) ∧ s.reg ⟨b.toNat, hb⟩ = 0
    | .unknownOpcode ir => s.pc ≤ 253 ∧ ir = s.mem.read s.pc ∧ ∀ i, opcode i ≠ ir
    | .fetchBoundsFault addr => 254 ≤ s.pc ∧ addr = max s.pc 256
    | .regIndexFault _ value => 8 ≤ value.toNat ∧ ∃ i, decode s.window = .ok i ∧ value ∈ i.registerOperands

/-- pc moves by the length of the instruction's encoding, or to the whole value of the register a jump names, or to the
popped byte (30_encoding.md sections 1 and 3, 10_state.md section 3). The register is read after the step, so for CALL R7
this says that pc is the decremented SP, the spec's decision D12 (log entry 9); that a JEQ or JNE not taken moves pc by
its length whatever its index is rests on decision D21 (log entry 12), and that pc is never reduced on D13 (log entry 10). -/
def Obligations.PcMovesByLengthOrToItsTarget : Prop :=
  ∀ (i : Instr) (s t : State), s.status = .running → exec i s = .next t → t.status = .running →
    t.pc = s.pc + (encode i).length ∨
    (∃ a, ∃ ha : a.toNat < 8, (i = .jmp a ∨ i = .jeq a ∨ i = .jne a ∨ i = .call a) ∧
      t.pc = (t.reg ⟨a.toNat, ha⟩).toNat) ∨
    (i = .ret ∧ t.pc = (s.mem.read s.sp.toNat).toNat)

/-- A byte stored by PUSH into the window of the next instruction is what the next fetch sees (20_memory.md section 3, an
inference the spec marks as its own; where the push wraps SP, by decision D3, log entry 14). -/
def Obligations.NextFetchSeesThePushedByte : Prop :=
  ∀ (a : Byte) (s t : State) (ha : a.toNat < 7), s.mem.wf → s.status = .running → s.pc ≤ 251 →
    exec (.push a) s = .next t →
    (t.pc = t.sp.toNat → t.window.ir = s.reg ⟨a.toNat, ha.trans (by decide)⟩) ∧
    (t.pc + 1 = t.sp.toNat → t.window.opA = s.reg ⟨a.toNat, ha.trans (by decide)⟩) ∧
    (t.pc + 2 = t.sp.toNat → t.window.opB = s.reg ⟨a.toNat, ha.trans (by decide)⟩) ∧
    ∀ i, decode t.window = .ok i → step t = exec i t

/-! ## Encoding (30_encoding.md) -/

/-- Every instruction, with every operand at every value, decodes from its own encoding, whatever bytes follow it
(30_encoding.md sections 1 to 3; that NOT leaves its third byte unused is decision D8, log entry 6). -/
def Obligations.DecodeOfEncodeIsTheInstruction : Prop :=
  ∀ (i : Instr) (rest : List Byte) (w : Window), windowOfBytes (encode i ++ rest) = some w → decode w = .ok i

/-- A window that decodes begins with the encoding of what it decodes to, so two windows with one meaning differ only in
bytes the format does not use (30_encoding.md sections 1 to 3, where the lengths of RET, JMP, JEQ and JNE are an inference
the spec marks as its own; that NOT leaves its third byte unused is decision D8, log entry 6). -/
def Obligations.EncodeOfDecodeIsTheWindow : Prop :=
  ∀ (w : Window) (i : Instr), decode w = .ok i → encode i = [w.ir, w.opA, w.opB].take i.length

/-- 30_encoding.md R66, whole: decoding is one exact match of the whole opcode byte against the 20 rows of the table, a
byte that matches none is an unknown opcode, and each opcode belongs to one mnemonic. -/
def Obligations.DecoderAcceptsExactlyTheTwentyOpcodes : Prop :=
  (∀ w : Window,
    (w.ir.toNat ∈ [1, 17, 69, 70, 71, 80, 84, 85, 86, 130, 160, 162, 164, 167, 105, 168, 170, 171, 172, 173] →
      ∃ i, decode w = .ok i ∧ opcode i = w.ir) ∧
    (w.ir.toNat ∉ [1, 17, 69, 70, 71, 80, 84, 85, 86, 130, 160, 162, 164, 167, 105, 168, 170, 171, 172, 173] →
      decode w = .error (.unknownOpcode w.ir))) ∧
  (∀ i j : Instr, opcode i = opcode j ↔ i.mnemonic = j.mnemonic)

/-- A few words written out bit by bit from the tables of 30_encoding.md sections 1 and 3. -/
def Obligations.WrittenOutWordsDecode : Prop :=
  decode ⟨0b00000001, 0b11111111, 0b11111111⟩ = .ok .hlt ∧
  decode ⟨0b01000101, 0b00000111, 0b10000010⟩ = .ok (.push 7) ∧
  decode ⟨0b01010101, 0b00000100, 0b00000000⟩ = .ok (.jeq 4) ∧
  decode ⟨0b10000010, 0b00000011, 0b10101010⟩ = .ok (.ldi 3 170) ∧
  decode ⟨0b10100000, 0b00000001, 0b00000010⟩ = .ok (.add 1 2) ∧
  decode ⟨0b10101101, 0b00000110, 0b00000101⟩ = .ok (.shr 6 5) ∧
  decode ⟨0b10100001, 0b00000000, 0b00000001⟩ = .error (.unknownOpcode 161)

/-- The number spec/opcode_table.json gives an instruction's bytes: the first byte lowest. -/
def packed (bs : List Byte) : Nat := bs.foldr (fun b n => b.toNat + 256 * n) 0

/-- An instruction placed where the next fetch reads it, from the table's numbering of its bits, is the very instruction
the next step runs (30_encoding.md sections 1 to 3, 42_control.md section 1; the placing is log entry 16). -/
def Obligations.PlacedInstructionRunsNext : Prop :=
  ∀ (i : Instr) (s : State), s.status = .running → s.pc ≤ 253 → s.mem.wf →
    decodeTableWord (8 * i.length) (packed (encode i)) = some i ∧
    step (s.withFetchWord (8 * i.length) (packed (encode i))) =
      exec i (s.withFetchWord (8 * i.length) (packed (encode i)))

/-! ## Reset (70_reset_and_hazards.md) -/

/-- Every field of the state after reset (10_state.md section 7). SP and running are the source's; the zeros of R0 to R6,
`fl` and memory are the spec's decisions D4, D5 and D6 (log entries 1, 2, 3), pc, status and out its inferences (log
entry 21). -/
def Obligations.ResetLeavesEveryField : Prop :=
  (∀ k : Fin 8, State.reset.reg k = if k.val = 7 then 255 else 0) ∧
  State.reset.pc = 0 ∧ State.reset.fl = 0 ∧ State.reset.running = true ∧
  State.reset.status = .running ∧ State.reset.out = [] ∧ ∀ addr, State.reset.mem.read addr = 0

/-- An image of at most 256 bytes is placed from address 0, the rest of memory reads as the fill (decision D6, log entry
3), everything else is as at reset, and a longer image is refused before the core starts (decision D16, log entry 16)
(70_reset_and_hazards.md section 1). -/
def Obligations.ImageIsPlacedFromAddressZero : Prop :=
  ∀ image : List Byte,
    (image.length ≤ 256 → ∃ s, resetWithImage image = .ok s ∧
      (∀ addr, s.mem.read addr = image.getD addr 0) ∧ s = { State.reset with mem := s.mem } ∧ s.Inv) ∧
    (256 < image.length → resetWithImage image = .error .imageTooLong)

/-! ## Whole-machine rules -/

/-- The legal-state invariant holds at reset; the values it meets are those of log entries 1 to 3 and 21 (for `fl` decision
D5, for memory decision D6). -/
def Obligations.ResetIsLegal : Prop := State.reset.Inv

/-- Every step keeps memory canonical, pc in 0 to 256, `fl` one of 0, 1, 2, 4, `status` in agreement with `running`, and
the recorded reason legal (10_state.md sections 3 to 5, 60_exceptions.md section 1). The range of pc and the recorded
address 256 rest on the spec's decision D13 (log entry 10); that `fl` may be 0 on decision D5 (log entry 2). -/
def Obligations.EveryStepKeepsTheStateLegal : Prop :=
  ∀ s t : State, s.Inv → step s = .next t → t.Inv

/-- Only PUSH and CALL write memory, and only the byte at SP after its decrement (20_memory.md section 1), which wraps by
the spec's decision D3 (log entry 14). -/
def Obligations.OnlyPushAndCallWriteMemory : Prop :=
  ∀ (s t : State) (addr : Nat), step s = .next t → t.mem.read addr ≠ s.mem.read addr →
    addr = (s.sp.toNat + 255) % 256 ∧ ∃ a, decode s.window = .ok (.push a) ∨ decode s.window = .ok (.call a)

/-- The output stream is only ever appended to: along any run the earlier output is a prefix of the later, and grows by at
most one byte a step (10_state.md section 5; decision D11, log entry 15). -/
def Obligations.OutputIsOnlyAppendedTo : Prop :=
  ∀ (n : Nat) (s t : State), core.run n s = .next t → s.out <+: t.out ∧ t.out.length ≤ s.out.length + n

/-- `status` never changes after it becomes Halted: the halted state a run reaches is its last, so it is the only halted
state the run reaches (10_state.md section 5, 60_exceptions.md section 6; that a halted core's step is a fault of the
model is log entry 4). -/
def Obligations.HaltIsFinal : Prop :=
  ∀ (s t u : State) (n m : Nat) (r : HaltReason), core.run n s = .next t → t.status = .halted r →
    core.run m s = .next u → m ≤ n ∧ (m < n → u.status = .running)

/-- Nothing reads the bits G and L: two runs from states that agree but for `fl`, and in its bit 0, agree all along but for
`fl`, and in its bit 0 (10_state.md section 4, an inference the spec marks as its own). -/
def Obligations.GreaterAndLessFlagsAreNeverRead : Prop :=
  ∀ (n : Nat) (s t : State) (f : Byte), f.getLsbD 0 = s.fl.getLsbD 0 → core.run n s = .next t →
    ∃ g : Byte, g.getLsbD 0 = t.fl.getLsbD 0 ∧ core.run n { s with fl := f } = .next { t with fl := g }

/-- Nothing reads the output stream: a run from a state with other output emits the same bytes after it (10_state.md
section 5, 41_data_stack_io.md section 3; that `out` is a stream of bytes is decision D11, log entry 15). -/
def Obligations.OutputIsNeverRead : Prop :=
  ∀ (n : Nat) (s t : State) (earlier : List Byte), core.run n s = .next t →
    ∃ emitted, t.out = s.out ++ emitted ∧
      core.run n { s with out := earlier } = .next { t with out := earlier ++ emitted }

/-- A JMP to its own address is a hang: the run never ends, never halts and never leaves its state, so it is safe
(60_exceptions.md section 6). -/
def Obligations.SelfJumpRunsForever : Prop :=
  ∀ (a : Byte) (s : State) (ha : a.toNat < 8), s.status = .running → s.pc ≤ 253 →
    decode s.window = .ok (.jmp a) → (s.reg ⟨a.toNat, ha⟩).toNat = s.pc →
    (∀ n, core.run n s = .next s) ∧ SafeRun s

/-- The numeric codes 0 to 5 tell the status kinds apart, the clean reasons exit with 0 and the faults with another code,
1 for an unknown opcode; the process exits with 1 on a load failure and has not ended while the core runs (00_scope.md
section 5, 60_exceptions.md section 1; decision D10, log entry 8; that a long image is a load failure is decision D16,
log entry 16). -/
def Obligations.ExitCodeIsZeroExactlyForCleanHalts : Prop :=
  (∀ r : HaltReason, r.exitCode = 0 ↔ r.isClean = true) ∧
  (∀ ir, HaltReason.exitCode (.unknownOpcode ir) = 1) ∧
  (∀ image : List Byte, ∀ e, resetWithImage image = .error e → processExitCode (.error e) = some 1) ∧
  (∀ st : Status, processExitCode (.ok st) = none ↔ st = .running) ∧
  (∀ r : HaltReason, processExitCode (.ok (.halted r)) = some r.exitCode) ∧
  (∀ st : Status, st.code ≤ 5 ∧ (st.code = 0 ↔ st = .running)) ∧
  Status.code (.halted .hlt) = 1 ∧ Status.code (.halted .divZero) = 2 ∧
  (∀ ir, Status.code (.halted (.unknownOpcode ir)) = 3) ∧
  (∀ addr, Status.code (.halted (.fetchBoundsFault addr)) = 4) ∧
  (∀ f v, Status.code (.halted (.regIndexFault f v)) = 5)
end

