-- ==== Sys2Proof/Laws/Memory.lean ====
section
/-! SUPPORT. The laws of memory: a read after a write, and that every operation keeps the canonical form. -/

namespace Sys2Proof.Machine

@[simp] theorem Memory.read_nil (addr : Nat) : Memory.read [] addr = Config.memFill := rfl

/-- An address below every listed one is not listed. -/
theorem Memory.read_of_lt {m : Memory} {addr : Nat} (h : ∀ c ∈ m, addr < c.1) : m.read addr = Config.memFill := by
  induction m with
  | nil => rfl
  | cons c rest ih =>
    have hc : ¬ c.1 = addr := by have := h c (by simp); omega
    simp only [Memory.read, hc, if_false]
    exact ih fun d hd => h d (by simp [hd])

/-- The entries of `Memory.cons`. -/
theorem Memory.mem_cons {addr : Nat} {v : Byte} {rest : Memory} {c : Host.Cell} (h : c ∈ Memory.cons addr v rest) :
    c ∈ rest ∨ (c = (addr, v) ∧ v ≠ Config.memFill) := by
  unfold Memory.cons at h
  split at h
  · exact .inl h
  · next hv =>
    rcases List.mem_cons.1 h with h | h
    · exact .inr ⟨h, hv⟩
    · exact .inl h

/-- The entries of a written memory are old ones or the new one. -/
theorem Memory.mem_write {m : Memory} {addr : Nat} {v : Byte} {c : Host.Cell} (h : c ∈ m.write addr v) :
    c ∈ m ∨ (c = (addr, v) ∧ v ≠ Config.memFill) := by
  induction m with
  | nil => exact Memory.mem_cons h
  | cons d rest ih =>
    simp only [Memory.write] at h
    split at h
    · exact Memory.mem_cons h
    · split at h
      · exact (Memory.mem_cons h).imp_left (List.mem_cons_of_mem _)
      · rcases List.mem_cons.1 h with h | h
        · exact .inl (by simp [h])
        · exact (ih h).imp_left (List.mem_cons_of_mem _)

theorem Memory.wf_tail {c : Host.Cell} {m : Memory} (h : Memory.wf (c :: m)) : m.wf :=
  ⟨(List.pairwise_cons.1 h.1).2, fun d hd => h.2 d (List.mem_cons_of_mem _ hd)⟩

theorem Memory.wf_nil : Memory.wf [] := ⟨List.Pairwise.nil, by simp⟩

/-- `Memory.cons` keeps the form when its address lies below every listed one. -/
theorem Memory.cons_wf {m : Memory} {addr : Nat} (v : Byte) (h : m.wf) (ha : addr < Config.memSize)
    (hlt : ∀ c ∈ m, addr < c.1) : (Memory.cons addr v m).wf := by
  unfold Memory.cons
  split
  · exact h
  · next hv => exact ⟨List.pairwise_cons.2 ⟨hlt, h.1⟩, by simpa [hv, ha] using h.2⟩

/-- A write inside memory keeps the canonical form. -/
theorem Memory.write_wf {m : Memory} {addr : Nat} (v : Byte) (h : m.wf) (ha : addr < Config.memSize) :
    (m.write addr v).wf := by
  induction m with
  | nil => exact Memory.cons_wf v h ha (by simp)
  | cons c rest ih =>
    have hrise := (List.pairwise_cons.1 h.1).1
    simp only [Memory.write]
    split
    · next hlt =>
      refine Memory.cons_wf v h ha fun d hd => ?_
      rcases List.mem_cons.1 hd with rfl | hd
      · exact hlt
      · exact hlt.trans (hrise d hd)
    · split
      · next heq => exact Memory.cons_wf v (Memory.wf_tail h) ha fun d hd => heq ▸ hrise d hd
      · next hge hne =>
        refine ⟨List.pairwise_cons.2 ⟨fun d hd => ?_, (ih (Memory.wf_tail h)).1⟩, fun d hd => ?_⟩
        · rcases Memory.mem_write hd with hd | ⟨rfl, -⟩
          · exact hrise d hd
          · show c.1 < addr
            omega
        · rcases List.mem_cons.1 hd with rfl | hd
          · exact h.2 _ (by simp)
          · exact (ih (Memory.wf_tail h)).2 d hd

/-- Storing a run of bytes keeps the canonical form. -/
theorem Memory.writeBytes_wf {m : Memory} (bs : List Byte) (addr : Nat) (h : m.wf) : (m.writeBytes addr bs).wf := by
  induction bs generalizing m addr with
  | nil => exact h
  | cons b bs ih =>
    simp only [Memory.writeBytes]
    split
    · next ha => exact ih _ (Memory.write_wf b h ha)
    · exact ih _ h

/-- Reading the address of an entry put in front, or any other. -/
theorem Memory.read_cons {m : Memory} {addr : Nat} (v : Byte) (hlt : ∀ c ∈ m, addr < c.1) (k : Nat) :
    (Memory.cons addr v m).read k = if k = addr then v else m.read k := by
  unfold Memory.cons
  split
  · next hv =>
    split
    · next hk => rw [hk, hv]; exact Memory.read_of_lt hlt
    · rfl
  · simp only [Memory.read, eq_comm]

/-- A read after a write gives the value written at its address, and leaves every other address alone. -/
theorem Memory.read_write {m : Memory} (h : m.Pairwise (fun c d => c.1 < d.1)) (addr : Nat) (v : Byte) (k : Nat) :
    (m.write addr v).read k = if k = addr then v else m.read k := by
  induction m with
  | nil => exact Memory.read_cons v (by simp) k
  | cons c rest ih =>
    obtain ⟨hrise, hrest⟩ := List.pairwise_cons.1 h
    simp only [Memory.write]
    split
    · next hlt =>
      refine Memory.read_cons v (fun d hd => ?_) k
      rcases List.mem_cons.1 hd with rfl | hd
      · exact hlt
      · exact hlt.trans (hrise d hd)
    · split
      · next heq =>
        rw [Memory.read_cons v (fun d hd => heq ▸ hrise d hd) k]
        split
        · rfl
        · next hk =>
          have : ¬ c.1 = k := by omega
          simp [Memory.read, this]
      · next hge hne =>
        simp only [Memory.read]
        split
        · next hck =>
          have : ¬ k = addr := by omega
          simp [this]
        · exact ih hrest

@[simp] theorem Memory.read_write_self {m : Memory} (h : m.wf) (addr : Nat) (v : Byte) :
    (m.write addr v).read addr = v := by
  rw [Memory.read_write h.1]
  simp

/-- Memory outside the written address, whether or not the list is in canonical form. -/
theorem Memory.read_write_of_ne (m : Memory) {addr k : Nat} (v : Byte) (hk : k ≠ addr) :
    (m.write addr v).read k = m.read k := by
  have hc : ∀ rest : Memory, (Memory.cons addr v rest).read k = rest.read k := by
    intro rest
    unfold Memory.cons
    split
    · rfl
    · simp [Memory.read, hk.symm]
  induction m with
  | nil => exact hc []
  | cons c rest ih =>
    simp only [Memory.write]
    split
    · exact hc _
    · split
      · next heq =>
        have : ¬ c.1 = k := by omega
        simp [hc, Memory.read, this]
      · simp only [Memory.read, ih]

end Sys2Proof.Machine
end

