-- ==== Sys2Proof/Laws/State.lean ====
section
/-! SUPPORT. One lemma per field of State per update, true by rfl; and the same for reading one register. -/

namespace Sys2Proof.Machine

variable (s : State)

@[simp] theorem State.setReg_mem (i : Fin Config.nReg) (v : Byte) : (s.setReg i v).mem = s.mem := rfl
@[simp] theorem State.setReg_x (i : Fin Config.nReg) (v : Byte) : (s.setReg i v).x = s.x.set i v := rfl
@[simp] theorem State.setReg_pc (i : Fin Config.nReg) (v : Byte) : (s.setReg i v).pc = s.pc := rfl
@[simp] theorem State.setReg_fl (i : Fin Config.nReg) (v : Byte) : (s.setReg i v).fl = s.fl := rfl
@[simp] theorem State.setReg_running (i : Fin Config.nReg) (v : Byte) : (s.setReg i v).running = s.running := rfl
@[simp] theorem State.setReg_status (i : Fin Config.nReg) (v : Byte) : (s.setReg i v).status = s.status := rfl
@[simp] theorem State.setReg_out (i : Fin Config.nReg) (v : Byte) : (s.setReg i v).out = s.out := rfl

@[simp] theorem State.setPc_mem (n : Nat) : (s.setPc n).mem = s.mem := rfl
@[simp] theorem State.setPc_x (n : Nat) : (s.setPc n).x = s.x := rfl
@[simp] theorem State.setPc_pc (n : Nat) : (s.setPc n).pc = n := rfl
@[simp] theorem State.setPc_fl (n : Nat) : (s.setPc n).fl = s.fl := rfl
@[simp] theorem State.setPc_running (n : Nat) : (s.setPc n).running = s.running := rfl
@[simp] theorem State.setPc_status (n : Nat) : (s.setPc n).status = s.status := rfl
@[simp] theorem State.setPc_out (n : Nat) : (s.setPc n).out = s.out := rfl

@[simp] theorem State.advance_mem (n : Nat) : (s.advance n).mem = s.mem := rfl
@[simp] theorem State.advance_x (n : Nat) : (s.advance n).x = s.x := rfl
@[simp] theorem State.advance_pc (n : Nat) : (s.advance n).pc = s.pc + n := rfl
@[simp] theorem State.advance_fl (n : Nat) : (s.advance n).fl = s.fl := rfl
@[simp] theorem State.advance_running (n : Nat) : (s.advance n).running = s.running := rfl
@[simp] theorem State.advance_status (n : Nat) : (s.advance n).status = s.status := rfl
@[simp] theorem State.advance_out (n : Nat) : (s.advance n).out = s.out := rfl

@[simp] theorem State.emit_mem (v : Byte) : (s.emit v).mem = s.mem := rfl
@[simp] theorem State.emit_x (v : Byte) : (s.emit v).x = s.x := rfl
@[simp] theorem State.emit_pc (v : Byte) : (s.emit v).pc = s.pc := rfl
@[simp] theorem State.emit_fl (v : Byte) : (s.emit v).fl = s.fl := rfl
@[simp] theorem State.emit_running (v : Byte) : (s.emit v).running = s.running := rfl
@[simp] theorem State.emit_status (v : Byte) : (s.emit v).status = s.status := rfl
@[simp] theorem State.emit_out (v : Byte) : (s.emit v).out = s.out ++ [v] := rfl

@[simp] theorem State.setFl_mem (v : Byte) : (s.setFl v).mem = s.mem := rfl
@[simp] theorem State.setFl_x (v : Byte) : (s.setFl v).x = s.x := rfl
@[simp] theorem State.setFl_pc (v : Byte) : (s.setFl v).pc = s.pc := rfl
@[simp] theorem State.setFl_fl (v : Byte) : (s.setFl v).fl = v := rfl
@[simp] theorem State.setFl_running (v : Byte) : (s.setFl v).running = s.running := rfl
@[simp] theorem State.setFl_status (v : Byte) : (s.setFl v).status = s.status := rfl
@[simp] theorem State.setFl_out (v : Byte) : (s.setFl v).out = s.out := rfl

@[simp] theorem State.storeAtSp_mem (v : Byte) : (s.storeAtSp v).mem = s.mem.write s.sp.toNat v := rfl
@[simp] theorem State.storeAtSp_x (v : Byte) : (s.storeAtSp v).x = s.x := rfl
@[simp] theorem State.storeAtSp_pc (v : Byte) : (s.storeAtSp v).pc = s.pc := rfl
@[simp] theorem State.storeAtSp_fl (v : Byte) : (s.storeAtSp v).fl = s.fl := rfl
@[simp] theorem State.storeAtSp_running (v : Byte) : (s.storeAtSp v).running = s.running := rfl
@[simp] theorem State.storeAtSp_status (v : Byte) : (s.storeAtSp v).status = s.status := rfl
@[simp] theorem State.storeAtSp_out (v : Byte) : (s.storeAtSp v).out = s.out := rfl

@[simp] theorem State.decSp_mem : (s.decSp).mem = s.mem := rfl
@[simp] theorem State.decSp_x : (s.decSp).x = s.x.set Config.spIndex (s.sp - 1) := rfl
@[simp] theorem State.decSp_pc : (s.decSp).pc = s.pc := rfl
@[simp] theorem State.decSp_fl : (s.decSp).fl = s.fl := rfl
@[simp] theorem State.decSp_running : (s.decSp).running = s.running := rfl
@[simp] theorem State.decSp_status : (s.decSp).status = s.status := rfl
@[simp] theorem State.decSp_out : (s.decSp).out = s.out := rfl

@[simp] theorem State.incSp_mem : (s.incSp).mem = s.mem := rfl
@[simp] theorem State.incSp_x : (s.incSp).x = s.x.set Config.spIndex (s.sp + 1) := rfl
@[simp] theorem State.incSp_pc : (s.incSp).pc = s.pc := rfl
@[simp] theorem State.incSp_fl : (s.incSp).fl = s.fl := rfl
@[simp] theorem State.incSp_running : (s.incSp).running = s.running := rfl
@[simp] theorem State.incSp_status : (s.incSp).status = s.status := rfl
@[simp] theorem State.incSp_out : (s.incSp).out = s.out := rfl

@[simp] theorem State.halt_mem (r : HaltReason) : (s.halt r).mem = s.mem := rfl
@[simp] theorem State.halt_x (r : HaltReason) : (s.halt r).x = s.x := rfl
@[simp] theorem State.halt_pc (r : HaltReason) : (s.halt r).pc = s.pc := rfl
@[simp] theorem State.halt_fl (r : HaltReason) : (s.halt r).fl = s.fl := rfl
@[simp] theorem State.halt_running (r : HaltReason) : (s.halt r).running = false := rfl
@[simp] theorem State.halt_status (r : HaltReason) : (s.halt r).status = .halted r := rfl
@[simp] theorem State.halt_out (r : HaltReason) : (s.halt r).out = s.out := rfl

@[simp] theorem State.setPc_reg (n : Nat) (k : Fin Config.nReg) : (s.setPc n).reg k = s.reg k := rfl
@[simp] theorem State.setPc_sp (n : Nat) : (s.setPc n).sp = s.sp := rfl
@[simp] theorem State.advance_reg (n : Nat) (k : Fin Config.nReg) : (s.advance n).reg k = s.reg k := rfl
@[simp] theorem State.advance_sp (n : Nat) : (s.advance n).sp = s.sp := rfl
@[simp] theorem State.emit_reg (v : Byte) (k : Fin Config.nReg) : (s.emit v).reg k = s.reg k := rfl
@[simp] theorem State.emit_sp (v : Byte) : (s.emit v).sp = s.sp := rfl
@[simp] theorem State.setFl_reg (v : Byte) (k : Fin Config.nReg) : (s.setFl v).reg k = s.reg k := rfl
@[simp] theorem State.setFl_sp (v : Byte) : (s.setFl v).sp = s.sp := rfl
@[simp] theorem State.storeAtSp_reg (v : Byte) (k : Fin Config.nReg) : (s.storeAtSp v).reg k = s.reg k := rfl
@[simp] theorem State.storeAtSp_sp (v : Byte) : (s.storeAtSp v).sp = s.sp := rfl
@[simp] theorem State.halt_reg (r : HaltReason) (k : Fin Config.nReg) : (s.halt r).reg k = s.reg k := rfl
@[simp] theorem State.halt_sp (r : HaltReason) : (s.halt r).sp = s.sp := rfl

/-- A register reads what was last written to it (10_state.md R21). -/
@[simp] theorem State.setReg_reg_self (i : Fin Config.nReg) (v : Byte) : (s.setReg i v).reg i = v := by
  simp [State.setReg, State.reg]

/-- Writing one register leaves every other as it was. -/
@[simp] theorem State.setReg_reg_of_ne {i k : Fin Config.nReg} (v : Byte) (h : k ≠ i) :
    (s.setReg i v).reg k = s.reg k := by
  have : i.val ≠ k.val := fun e => h (Fin.ext e.symm)
  simp [State.setReg, State.reg, this]

/-- Register writes, read as one case distinction. -/
theorem State.setReg_reg (i k : Fin Config.nReg) (v : Byte) :
    (s.setReg i v).reg k = if k = i then v else s.reg k := by
  split
  · next h => subst h; simp
  · next h => simp [h]

@[simp] theorem State.decSp_sp : s.decSp.sp = s.sp - 1 := by simp [State.decSp, State.sp]

@[simp] theorem State.incSp_sp : s.incSp.sp = s.sp + 1 := by simp [State.incSp, State.sp]

/-- A push moves register 7 only. -/
@[simp] theorem State.decSp_reg_of_ne {k : Fin Config.nReg} (h : k ≠ Config.spIndex) : s.decSp.reg k = s.reg k := by
  simp [State.decSp, h]

/-- A pop moves register 7 only, after its destination. -/
@[simp] theorem State.incSp_reg_of_ne {k : Fin Config.nReg} (h : k ≠ Config.spIndex) : s.incSp.reg k = s.reg k := by
  simp [State.incSp, h]

/-- Two states that read alike in every register have the same register file. -/
theorem State.x_ext {s t : State} (h : ∀ k, s.reg k = t.reg k) : s.x = t.x := by
  apply Vector.ext
  intro n hn
  exact h ⟨n, hn⟩

end Sys2Proof.Machine
end

