-- ==== Sys2Proof/Laws/Ops.lean ====
section
/-! SUPPORT. One lemma per shared operation that says once everything it can do: the index check, the fetch, the ALU
shape, the jump, and the step. Later proofs cite these. -/

namespace Sys2Proof.Machine

/-- A byte below 8 selects the register of its number (30_encoding.md R65). -/
theorem regIndex_of_lt {b : Byte} (h : b.toNat < 8) : regIndex b = some ⟨b.toNat, h⟩ := dif_pos h

/-- A byte of 8 or more selects none. -/
theorem regIndex_of_ge {b : Byte} (h : 8 ≤ b.toNat) : regIndex b = none := dif_neg (Nat.not_lt.2 h)

theorem regIndex_eq_some {b : Byte} {i : Fin Config.nReg} : regIndex b = some i ↔ b.toNat = i.val := by
  by_cases h : b.toNat < 8
  · rw [regIndex_of_lt h, Option.some.injEq, Fin.ext_iff]
  · rw [regIndex_of_ge (Nat.not_lt.1 h)]
    have := i.isLt
    constructor
    · intro e; cases e
    · intro e; simp only [Config.nReg] at this; omega

@[simp] theorem withReg_of_lt {field : OperandField} {b : Byte} {s : State} {k : Fin Config.nReg → Result}
    (h : b.toNat < 8) : withReg field b s k = k ⟨b.toNat, h⟩ := by
  simp [withReg, regIndex_of_lt h]

@[simp] theorem withReg_of_ge {field : OperandField} {b : Byte} {s : State} {k : Fin Config.nReg → Result}
    (h : 8 ≤ b.toNat) : withReg field b s k = raise (.regIndexFault field b) s := by
  simp [withReg, regIndex_of_ge h]

/-- Everything the index check can do. -/
theorem withReg_cases {field : OperandField} {b : Byte} {s t : State} {k : Fin Config.nReg → Result}
    (h : withReg field b s k = .next t) :
    (∃ hb : b.toNat < 8, k ⟨b.toNat, hb⟩ = .next t) ∨ (8 ≤ b.toNat ∧ t = s.halt (.regIndexFault field b)) := by
  by_cases hb : b.toNat < 8
  · rw [withReg_of_lt hb] at h
    exact .inl ⟨hb, h⟩
  · rw [withReg_of_ge (Nat.not_lt.1 hb)] at h
    exact .inr ⟨Nat.not_lt.1 hb, (Host.Outcome.next.inj h).symm⟩

/-- Everything the check of two indices can do: `a` is checked before `b`. -/
theorem withRegs_cases {a b : Byte} {s t : State} {k : Fin Config.nReg → Fin Config.nReg → Result}
    (h : withRegs a b s k = .next t) :
    (∃ (ha : a.toNat < 8) (hb : b.toNat < 8), k ⟨a.toNat, ha⟩ ⟨b.toNat, hb⟩ = .next t) ∨
    (8 ≤ a.toNat ∧ t = s.halt (.regIndexFault .a a)) ∨
    (a.toNat < 8 ∧ 8 ≤ b.toNat ∧ t = s.halt (.regIndexFault .b b)) := by
  rcases withReg_cases h with ⟨ha, h⟩ | h
  · rcases withReg_cases h with ⟨hb, h⟩ | ⟨hb, h⟩
    · exact .inl ⟨ha, hb, h⟩
    · exact .inr (.inr ⟨ha, hb, h⟩)
  · exact .inr (.inl h)

/-- Everything a two-register ALU operation can do (40_alu.md R80). -/
theorem aluTwo_cases {f : Byte → Byte → Byte} {a b : Byte} {s t : State} (h : aluTwo f a b s = .next t) :
    (∃ (ha : a.toNat < 8) (hb : b.toNat < 8),
      t = (s.setReg ⟨a.toNat, ha⟩ (f (s.reg ⟨a.toNat, ha⟩) (s.reg ⟨b.toNat, hb⟩))).advance 3) ∨
    (8 ≤ a.toNat ∧ t = s.halt (.regIndexFault .a a)) ∨
    (a.toNat < 8 ∧ 8 ≤ b.toNat ∧ t = s.halt (.regIndexFault .b b)) := by
  rcases withRegs_cases h with ⟨ha, hb, h⟩ | h
  · exact .inl ⟨ha, hb, (Host.Outcome.next.inj h).symm⟩
  · exact .inr h

/-- Everything a taken jump can do (42_control.md R122). -/
theorem jumpToReg_cases {a : Byte} {s t : State} (h : jumpToReg a s = .next t) :
    (∃ ha : a.toNat < 8, t = s.setPc (s.reg ⟨a.toNat, ha⟩).toNat) ∨
    (8 ≤ a.toNat ∧ t = s.halt (.regIndexFault .a a)) := by
  rcases withReg_cases h with ⟨ha, h⟩ | h
  · exact .inl ⟨ha, (Host.Outcome.next.inj h).symm⟩
  · exact .inr h

/-- The fetch window lies inside memory exactly from pc 253 down (20_memory.md R44). -/
theorem outsideWindow_eq_none {pc : Nat} : outsideWindow pc = none ↔ pc + 2 ≤ 255 := by
  have hm : Config.memSize = 256 := rfl
  rw [outsideWindow, List.find?_eq_none]
  simp only [List.forall_mem_cons, decide_eq_true_eq]
  constructor
  · rintro ⟨-, -, h, -⟩
    omega
  · intro h
    exact ⟨by omega, by omega, by omega, by simp⟩

/-- The address a fetch outside memory reports is the lowest one outside (R142). -/
theorem outsideWindow_eq_some {pc addr : Nat} (h : outsideWindow pc = some addr) :
    254 ≤ pc ∧ addr = max pc 256 := by
  by_cases h0 : 256 ≤ pc
  · simp [outsideWindow, Config.memSize, h0] at h
    omega
  · by_cases h1 : 256 ≤ pc + 1
    · simp [outsideWindow, Config.memSize, h0, h1] at h
      omega
    · by_cases h2 : 256 ≤ pc + 2
      · simp [outsideWindow, Config.memSize, h0, h1, h2] at h
        omega
      · simp [outsideWindow, Config.memSize, h0, h1, h2] at h

/-- Everything a step can do (R120). -/
theorem step_cases {s t : State} (h : step s = .next t) : s.status = .running ∧
    ((254 ≤ s.pc ∧ t = s.halt (.fetchBoundsFault (max s.pc 256))) ∨
     (s.pc ≤ 253 ∧ decode s.window = .error (.unknownOpcode s.window.ir) ∧ t = s.halt (.unknownOpcode s.window.ir)) ∨
     (s.pc ≤ 253 ∧ ∃ i, decode s.window = .ok i ∧ exec i s = .next t)) := by
  unfold step at h
  split at h
  · cases h
  · next hs =>
    refine ⟨hs, ?_⟩
    cases ho : outsideWindow s.pc with
    | some addr =>
      obtain ⟨hpc, rfl⟩ := outsideWindow_eq_some ho
      simp only [fetch, ho] at h
      exact .inl ⟨hpc, (Host.Outcome.next.inj h).symm⟩
    | none =>
      have hpc : s.pc ≤ 253 := by have := outsideWindow_eq_none.1 ho; omega
      simp only [fetch, ho] at h
      cases hd : decode s.window with
      | ok i => exact .inr (.inr ⟨hpc, i, rfl, by simpa only [hd] using h⟩)
      | error e =>
        have he : e = .unknownOpcode s.window.ir := by
          unfold decode at hd
          split at hd <;> first | cases hd; done | exact (Except.error.inj hd).symm
        subst he
        simp only [hd] at h
        exact .inr (.inl ⟨hpc, rfl, (Host.Outcome.next.inj h).symm⟩)

end Sys2Proof.Machine
end

