-- ==== Sys2Proof/Laws/Run.lean ====
section
/-! SUPPORT. Runs of several steps, taken apart once: one step and the rest, and the induction over a run. -/

namespace Sys2Proof.Machine

@[simp] theorem run_zero (s : State) : core.run 0 s = .next s := rfl

/-- A run of one step more of any machine whose first step has a next state. -/
theorem machine_run_of_next (M : Host.Core) (n : Nat) {s u : M.State} (h : M.step s = .next u) :
    M.run (n + 1) s = M.run n u := by
  rw [Host.Core.run, h]

/-- A run of any machine stops at the first fault. -/
theorem machine_run_of_fault (M : Host.Core) (n : Nat) {s : M.State} {f : M.Fault} (h : M.step s = .fault f) :
    M.run (n + 1) s = .fault f := by
  rw [Host.Core.run, h]

/-- A run of any machine stops at the first refusal. -/
theorem machine_run_of_refused (M : Host.Core) (n : Nat) {s : M.State} {r : M.Refusal} (h : M.step s = .refused r) :
    M.run (n + 1) s = .refused r := by
  rw [Host.Core.run, h]

theorem run_succ_of_next {s u : State} (n : Nat) (h : step s = .next u) : core.run (n + 1) s = core.run n u :=
  machine_run_of_next core n h

theorem run_succ_of_fault {s : State} {f : Fault} (n : Nat) (h : step s = .fault f) :
    core.run (n + 1) s = .fault f :=
  machine_run_of_fault core n h

/-- A run of one step more that ends in a next state begins with a step that has one. -/
theorem run_succ_cases {s t : State} {n : Nat} (h : core.run (n + 1) s = .next t) :
    ∃ u, step s = .next u ∧ core.run n u = .next t := by
  cases hs : step s with
  | next u => exact ⟨u, rfl, run_succ_of_next n hs ▸ h⟩
  | fault f => cases (run_succ_of_fault n hs).symm.trans h
  | refused r =>
    cases (machine_run_of_refused core n hs).symm.trans h

/-- What every step keeps, every run keeps. -/
theorem run_keeps {P : State → Prop} (hP : ∀ s t, P s → step s = .next t → P t) :
    ∀ (n : Nat) (s t : State), P s → core.run n s = .next t → P t
  | 0, _, _, hs, h => Host.Outcome.next.inj h ▸ hs
  | n + 1, s, t, hs, h => by
    obtain ⟨u, hu, h⟩ := run_succ_cases h
    exact run_keeps hP n u t (hP s u hs hu) h

end Sys2Proof.Machine
end

