-- ==== Sys2Proof/Tests/Slice0.lean ====
section
/-! SUPPORT. The model's own tests. Expected values are those of spec/95_test_vectors.md (T<n>), of the encoding tables of
30_encoding.md, or worked out by hand from the rule a docstring names; never the model's own answer. -/

namespace Sys2Proof.Tests

open Sys2Proof.Machine

/-! ## Helpers -/

/-- The state of a test vector: reset, with instruction bytes at pc and some registers set. -/
def start (pc : Nat) (bytes : List Byte) (regs : List (Fin 8 × Byte)) : State :=
  regs.foldl (fun s p => s.setReg p.1 p.2) { State.reset with pc := pc, mem := State.reset.mem.writeBytes pc bytes }

/-- One step, and what is read off its next state; none where there is none. -/
def after {α : Type} (s : State) (view : State → α) : Option α :=
  match step s with
  | .next t => some (view t)
  | .fault _ => none
  | .refused _ => none

/-- The result is a next state. -/
def isNext : Result → Bool
  | .next _ => true
  | .fault _ => false
  | .refused _ => false

/-! ## WellFormed: an ill-formed term for each check, which the check refuses -/

theorem test_wf_refuses_op_a_of_format_a : Instr.wellFormed (.push 8) = false := by decide

theorem test_wf_refuses_op_a_of_format_ab : Instr.wellFormed (.add 8 0) = false := by decide

theorem test_wf_refuses_op_b_of_format_ab : Instr.wellFormed (.add 0 8) = false := by decide

theorem test_wf_refuses_op_a_of_format_ai : Instr.wellFormed (.ldi 255 0) = false := by decide

theorem test_wf_admits_any_immediate : Instr.wellFormed (.ldi 7 255) = true := by decide

/-! ## Decoding: one word per instruction, written out from the binary column of 30_encoding.md R67 -/

theorem test_decode_hlt : decode ⟨0b00000001, 0b11111111, 0b11111111⟩ = .ok .hlt := by decide

theorem test_decode_ret : decode ⟨0b00010001, 0b00001000, 0b10000010⟩ = .ok .ret := by decide

theorem test_decode_push : decode ⟨0b01000101, 0b00000111, 0b10000010⟩ = .ok (.push 7) := by decide

theorem test_decode_pop : decode ⟨0b01000110, 0b00000001, 0b11111111⟩ = .ok (.pop 1) := by decide

theorem test_decode_prn : decode ⟨0b01000111, 0b00000010, 0b00000001⟩ = .ok (.prn 2) := by decide

theorem test_decode_call : decode ⟨0b01010000, 0b00000001, 0b01000111⟩ = .ok (.call 1) := by decide

theorem test_decode_jmp : decode ⟨0b01010100, 0b00000011, 0b00000000⟩ = .ok (.jmp 3) := by decide

theorem test_decode_jeq : decode ⟨0b01010101, 0b00000100, 0b01010100⟩ = .ok (.jeq 4) := by decide

theorem test_decode_jne : decode ⟨0b01010110, 0b00000101, 0b00000000⟩ = .ok (.jne 5) := by decide

theorem test_decode_not : decode ⟨0b01101001, 0b00000010, 0b11001000⟩ = .ok (.not 2) := by decide

theorem test_decode_ldi : decode ⟨0b10000010, 0b00000011, 0b10101010⟩ = .ok (.ldi 3 170) := by decide

theorem test_decode_add : decode ⟨0b10100000, 0b00000001, 0b00000110⟩ = .ok (.add 1 6) := by decide

theorem test_decode_mul : decode ⟨0b10100010, 0b00000001, 0b00000110⟩ = .ok (.mul 1 6) := by decide

theorem test_decode_mod : decode ⟨0b10100100, 0b00000001, 0b00000110⟩ = .ok (.mod 1 6) := by decide

theorem test_decode_cmp : decode ⟨0b10100111, 0b00000001, 0b00000110⟩ = .ok (.cmp 1 6) := by decide

theorem test_decode_and : decode ⟨0b10101000, 0b00000001, 0b00000110⟩ = .ok (.and 1 6) := by decide

theorem test_decode_or : decode ⟨0b10101010, 0b00000001, 0b00000110⟩ = .ok (.or 1 6) := by decide

theorem test_decode_xor : decode ⟨0b10101011, 0b00000001, 0b00000110⟩ = .ok (.xor 1 6) := by decide

theorem test_decode_shl : decode ⟨0b10101100, 0b00000001, 0b00000110⟩ = .ok (.shl 1 6) := by decide

theorem test_decode_shr : decode ⟨0b10101101, 0b00000001, 0b00000110⟩ = .ok (.shr 1 6) := by decide

/-- T80: the fill byte. -/
theorem test_decode_unknown_zero : decode ⟨0, 0, 0⟩ = .error (.unknownOpcode 0) := by decide

/-- The second byte of a table word is bits 15..8, the third bits 23..16; an index of 8 decodes (30_encoding.md R69). -/
theorem test_decode_table_word : decodeTableWord 24 0x0806A0 = some (.add 6 8) := by decide

/-! ## One step per vector of spec/95_test_vectors.md -/

/-- T4. -/
theorem test_add_to_sp_wraps : after (start 0 [160, 7, 0] [(0, 1)]) (fun t => (t.reg 7, t.pc)) = some (0, 3) := by decide

/-- T6. -/
theorem test_add_bad_index_b : after (start 0 [160, 0, 8] [(0, 1)]) (fun t => (t.status, t.pc)) = some (.halted (.regIndexFault .b 8), 0) := by decide

/-- T7. -/
theorem test_add_both_bad_names_a : after (start 0 [160, 9, 8] []) (fun t => (t.status, t.pc)) = some (.halted (.regIndexFault .a 9), 0) := by decide

/-- T9. -/
theorem test_mul_loses_high_byte : after (start 0 [162, 0, 1] [(0, 16), (1, 16)]) (fun t => (t.reg 0, t.pc)) = some (0, 3) := by decide

/-- T10. -/
theorem test_mul_255_255 : after (start 0 [162, 0, 1] [(0, 255), (1, 255)]) (fun t => (t.reg 0, t.pc)) = some (1, 3) := by decide

/-- T12. -/
theorem test_mod_17_5 : after (start 0 [164, 0, 1] [(0, 17), (1, 5)]) (fun t => (t.reg 0, t.pc)) = some (2, 3) := by decide

/-- T15. -/
theorem test_mod_by_zero_halts : after { start 0 [164, 0, 1] [(0, 17)] with fl := 4 } (fun t => (t.status, t.reg 0, t.fl, t.pc)) =
    some (.halted .divZero, 17, 4, 3) := by decide

/-- T21. -/
theorem test_cmp_overwrites_stale_flag : after { start 0 [167, 0, 1] [(0, 5), (1, 5)] with fl := 4 } (fun t => (t.fl, t.pc)) = some (1, 3) := by decide

/-- T23. -/
theorem test_cmp_is_unsigned : after (start 0 [167, 0, 1] [(0, 0), (1, 255)]) (fun t => (t.fl, t.pc)) = some (4, 3) := by decide

/-- T25. -/
theorem test_and : after (start 0 [168, 0, 1] [(0, 204), (1, 170)]) (fun t => (t.reg 0, t.pc)) = some (136, 3) := by decide

/-- T26. -/
theorem test_or : after (start 0 [170, 0, 1] [(0, 204), (1, 170)]) (fun t => (t.reg 0, t.pc)) = some (238, 3) := by decide

/-- T27. -/
theorem test_xor : after (start 0 [171, 0, 1] [(0, 204), (1, 170)]) (fun t => (t.reg 0, t.pc)) = some (102, 3) := by decide

/-- T31. -/
theorem test_not_ignores_op_b : after (start 0 [105, 2, 200] [(2, 15)]) (fun t => (t.reg 2, t.pc)) = some (240, 2) := by decide

/-- T34. -/
theorem test_not_bad_index : after (start 0 [105, 8, 0] []) (fun t => (t.status, t.pc)) = some (.halted (.regIndexFault .a 8), 0) := by decide

/-- T37. -/
theorem test_shl_by_width_clears : after (start 0 [172, 0, 1] [(0, 1), (1, 8)]) (fun t => (t.reg 0, t.pc)) = some (0, 3) := by decide

/-- T40. -/
theorem test_shl_by_itself : after (start 0 [172, 0, 0] [(0, 3)]) (fun t => (t.reg 0, t.pc)) = some (24, 3) := by decide

/-- T41. -/
theorem test_shr_is_logical : after (start 0 [173, 0, 1] [(0, 129), (1, 1)]) (fun t => (t.reg 0, t.pc)) = some (64, 3) := by decide

/-- T43. -/
theorem test_shr_by_width_clears : after (start 0 [173, 0, 1] [(0, 255), (1, 8)]) (fun t => (t.reg 0, t.pc)) = some (0, 3) := by decide

/-- T46. -/
theorem test_ldi_moves_sp : after (start 0 [130, 7, 100] []) (fun t => (t.sp, t.pc)) = some (100, 3) := by decide

/-- T47. -/
theorem test_ldi_bad_index : after (start 0 [130, 8, 1] []) (fun t => (t.status, t.x, t.pc)) = some (.halted (.regIndexFault .a 8), State.reset.x, 0) := by decide

/-- T50. -/
theorem test_push_r7_stores_decremented_sp : after (start 0 [69, 7] []) (fun t => (t.sp, t.mem.read 254, t.pc)) = some (254, 254, 2) := by decide

/-- T52. -/
theorem test_push_over_its_own_operand : after (start 0 [69, 0] [(0, 99), (7, 2)]) (fun t => (t.sp, t.mem.read 1, t.pc)) = some (1, 99, 2) := by decide

/-- T54 with mem[255] at its fill value. -/
theorem test_pop_of_empty_stack_wraps : after (start 0 [70, 1] []) (fun t => (t.reg 1, t.sp, t.pc)) = some (0, 0, 2) := by decide

/-- T55. -/
theorem test_pop_r7 : after { start 0 [70, 7] [(7, 254)] with mem := [(0, 70), (1, 7), (254, 10)] } (fun t => (t.sp, t.pc)) = some (11, 2) := by decide

/-- T57. -/
theorem test_prn : after (start 0 [71, 0] [(0, 8)]) (fun t => (t.out, t.pc)) = some ([8], 2) := by decide

/-- T58. -/
theorem test_prn_bad_index : after (start 0 [71, 9] []) (fun t => (t.status, t.out, t.pc)) = some (.halted (.regIndexFault .a 9), [], 0) := by decide

/-- T60. -/
theorem test_hlt_at_253 : after (start 253 [1] []) (fun t => (t.status, t.running, t.pc)) = some (.halted .hlt, false, 254) := by decide

/-- T61. -/
theorem test_hlt_at_254_does_not_run : after (start 254 [1] []) (fun t => (t.status, t.pc)) = some (.halted (.fetchBoundsFault 256), 254) := by decide

/-- T63. -/
theorem test_jmp_to_254 : after (start 0 [84, 3] [(3, 254)]) (fun t => (t.status, t.pc)) = some (.running, 254) := by decide

/-- T64. -/
theorem test_jmp_bad_index : after (start 0 [84, 8] []) (fun t => (t.status, t.pc)) = some (.halted (.regIndexFault .a 8), 0) := by decide

/-- T65. -/
theorem test_jeq_taken : after { start 0 [85, 4] [(4, 25)] with fl := 1 } (fun t => t.pc) = some 25 := by decide

/-- T68. -/
theorem test_jeq_not_taken_does_not_check : after (start 0 [85, 9] []) (fun t => (t.status, t.pc)) = some (.running, 2) := by decide

/-- T70. -/
theorem test_jne_taken_on_greater : after { start 0 [86, 3] [(3, 9)] with fl := 2 } (fun t => t.pc) = some 9 := by decide

/-- T73. -/
theorem test_jne_not_taken_does_not_check : after { start 0 [86, 9] [] with fl := 1 } (fun t => (t.status, t.pc)) = some (.running, 2) := by decide

/-- T74. -/
theorem test_call : after (start 8 [80, 1] [(1, 17), (7, 254)]) (fun t => (t.sp, t.mem.read 253, t.pc)) = some (253, 10, 17) := by decide

/-- T75. -/
theorem test_call_r7 : after (start 0 [80, 7] []) (fun t => (t.sp, t.mem.read 254, t.pc)) = some (254, 2, 254) := by decide

/-- T78. -/
theorem test_ret : after { start 20 [17] [(7, 253)] with mem := [(20, 17), (253, 10)] } (fun t => (t.sp, t.pc)) = some (254, 10) := by decide

/-- T79. -/
theorem test_ret_of_empty_stack : after { start 20 [17] [] with mem := [(20, 17), (255, 7)] } (fun t => (t.sp, t.pc)) = some (0, 7) := by decide

/-- T82. -/
theorem test_opcode_fitting_the_pattern_is_unknown : after (start 0 [161] []) (fun t => (t.status, t.pc)) = some (.halted (.unknownOpcode 161), 0) := by decide

/-- T83. -/
theorem test_bounds_fault_wins : after (start 254 [2] []) (fun t => (t.status, t.pc)) = some (.halted (.fetchBoundsFault 256), 254) := by decide

/-- 60_exceptions.md R157. -/
theorem test_halted_has_no_step : after (State.reset.halt .divZero) (fun t => t.pc) = none := by decide

/-! ## Memory, the loader, the host's view -/

theorem test_write_of_the_fill_removes_the_entry : Memory.write [(3, 9), (5, 1)] 3 0 = [(5, 1)] := by decide

theorem test_write_keeps_addresses_rising : Memory.write [(3, 9), (5, 1)] 4 7 = [(3, 9), (4, 7), (5, 1)] := by decide

/-- 30_encoding.md R71. -/
theorem test_asm_of_add : Instr.asm (.add 0 1) = "ADD R0, R1" := by decide

/-- E1: the host prints 8. -/
theorem test_rendered_out : State.renderedOut { State.reset with out := [8] } = ["8"] := by decide

/-- 00_scope.md R12. -/
theorem test_load_failure_exits_with_1 : (match resetWithImage (List.replicate 257 0) with
      | .error e => processExitCode (.error e)
      | .ok s => processExitCode (.ok s.status)) = some 1 := by
  rw [resetWithImage, if_neg (by rw [List.length_replicate]; decide)]
  rfl

/-! ## Witnesses: for each statement with hypotheses, a state and operands that meet them, at boundary values

A statement whose hypotheses are only index bounds is met at the indices 7 (usable) and 8 (faulting). -/

/-- AddWritesSumModulo256, MulWritesLowByteOfProduct, AndWritesBitwiseAnd, OrWritesBitwiseOr, XorWritesBitwiseXor,
ShlMultipliesByPowerOfTwoModulo256, ShrDividesByPowerOfTwo, LdiWritesTheImmediate, NotWritesOnesComplement,
PopLoadsFromTheStackPointer, PrnAppendsTheRegister: every clause, for any state. -/
theorem witness_index_bounds : ((7 : Byte).toNat < 8 ∧ (7 : Byte).toNat < 8) ∧ (8 ≤ (8 : Byte).toNat ∧ (7 : Byte).toNat < 8) ∧
    ((7 : Byte).toNat < 8 ∧ 8 ≤ (8 : Byte).toNat) ∧ (8 ≤ (8 : Byte).toNat ∧ 8 ≤ (255 : Byte).toNat) := by decide

/-- ModWritesRemainderOrHaltsOnZero: x[b] nonzero at b = 7, zero at b = 6 (index bounds as in `witness_index_bounds`). -/
theorem witness_mod_clauses : State.reset.reg 7 ≠ 0 ∧ State.reset.reg 6 = 0 := by decide

/-- CmpSetsExactlyOneFlagByUnsignedOrder: an instruction that changes `fl`. -/
theorem witness_cmp_clauses : ∃ t, exec (.cmp 7 6) State.reset = .next t ∧ t.fl ≠ State.reset.fl := ⟨_, rfl, by decide⟩

/-- WideShiftsAndSelfXorClearTheRegister: amounts 8 and 255. -/
theorem witness_wide_shift : (6 : Byte).toNat < 8 ∧ 8 ≤ ((start 0 [] [(7, 8)]).reg 7).toNat ∧ 8 ≤ (State.reset.reg 7).toNat := by decide

/-- PushStoresBelowTheStackPointer, CallPushesReturnAddressAndJumps, PushThenPopRestoresEveryRegister. -/
theorem witness_push_call : (7 : Byte).toNat < 8 ∧ 8 ≤ (8 : Byte).toNat ∧ (start 253 [69, 7] []).mem.wf ∧ (start 253 [69, 7] []).pc ≤ 253 := by decide

/-- PopLoadsFromTheStackPointer: both clauses. -/
theorem witness_pop_clauses : (7 : Byte).toNat = 7 ∧ (6 : Byte).toNat ≠ 7 := by decide

/-- HltHaltsAfterItself. -/
theorem witness_hlt_fetch : (start 254 [1] []).status = .running ∧ (start 254 [1] []).pc = 254 ∧ (start 255 [1] []).pc = 255 := by decide

/-- JmpTakesTheWholeRegister: the two targets outside the window. -/
theorem witness_jmp_clauses : (State.reset.status = .running ∧ 254 ≤ (State.reset.reg 7).toNat) ∧
    254 ≤ ((start 0 [] [(7, 254)]).reg 7).toNat := by decide

/-- JmpTakesTheWholeRegister (its last clause), SelfJumpRunsForever. -/
theorem witness_self_jump : (start 253 [84, 0] [(0, 253)]).status = .running ∧ (start 253 [84, 0] [(0, 253)]).pc ≤ 253 ∧
    decode (start 253 [84, 0] [(0, 253)]).window = .ok (.jmp 0) ∧
    ((start 253 [84, 0] [(0, 253)]).reg 0).toNat = (start 253 [84, 0] [(0, 253)]).pc := by decide

/-- JeqJumpsWhenEqualIsSet, JneJumpsWhenEqualIsClear: every clause. -/
theorem witness_jeq_jne_clauses : (flE.toNat % 2 = 1) ∧ (flL.toNat % 2 = 0) ∧ (0 : Byte).toNat % 2 = 0 ∧ (7 : Byte).toNat < 8 ∧ 8 ≤ (8 : Byte).toNat := by decide

/-- RegisterInstructionsChangeOneRegister. -/
theorem witness_register_frame : writesOnlyRegister (.mod 7 6) = some 7 ∧ isNext (exec (.mod 7 6) State.reset) = true := by decide

/-- CompareOutputAndJumpsKeepRegistersAndMemory: each disjunct. -/
theorem witness_compare_frame : isNext (exec (.cmp 7 0) State.reset) = true ∧ isNext (exec (.prn 7) State.reset) = true ∧
    isNext (exec .hlt State.reset) = true ∧ isNext (exec (.jmp 7) State.reset) = true ∧
    isNext (exec (.jeq 8) State.reset) = true ∧ isNext (exec (.jne 8) State.reset) = true := by decide

/-- PushAndCallStoreOnlyAtTheNewStackPointer. -/
theorem witness_store_frame : isNext (exec (.push 7) State.reset) = true ∧ isNext (exec (.call 8) State.reset) = true := by decide

/-- PopAndRetStoreNothing. -/
theorem witness_load_frame : isNext (exec (.pop 7) State.reset) = true ∧ isNext (exec .ret State.reset) = true := by decide

/-- PushThenPopCopiesARegister. -/
theorem witness_push_pop_copy : (7 : Byte).toNat < 8 ∧ (6 : Byte).toNat < 7 ∧ Memory.wf [] := by decide

/-- StackIsLastInFirstOut. -/
theorem witness_lifo : (∀ r ∈ List.replicate 256 (6 : Byte), r.toNat < 7) ∧ (List.replicate 256 (6 : Byte)).length ≤ 256 ∧ Memory.wf [] := by
  refine ⟨fun r hr => ?_, List.length_replicate.le, Memory.wf_nil⟩
  rw [List.eq_of_mem_replicate hr]
  decide

/-- PushesFillDownwardAndWrap: the first of 256 pushes from reset stands at 254. -/
theorem witness_pushes_fill : (List.replicate 256 (6 : Byte))[0]? = some 6 ∧ (List.replicate 256 (6 : Byte)).length ≤ 0 + 256 ∧
    (254 + 1 + 0) % 256 = State.reset.sp.toNat := 
  ⟨List.getElem?_replicate_of_lt (by decide), List.length_replicate.le, by decide⟩

/-- RetResumesAfterItsCall, with the state after the CALL as the callee's last. -/
theorem witness_ret_resumes : ∃ t v, exec (.call 7) (start 253 [80, 7] []) = .next t ∧ exec .ret t = .next v := ⟨_, _, rfl, rfl⟩

/-- StepRunsTheDecodedInstruction. -/
theorem witness_step_runs : (start 253 [1] []).status = .running ∧ (start 253 [1] []).pc ≤ 253 ∧
    decode ⟨(start 253 [1] []).mem.read 253, (start 253 [1] []).mem.read 254, (start 253 [1] []).mem.read 255⟩ = .ok .hlt := by decide

/-- FetchOutsideMemoryHaltsBeforeDecoding. -/
theorem witness_fetch_outside : (start 254 [] []).status = .running ∧ 254 ≤ (start 254 [] []).pc ∧ 254 ≤ (start 300 [] []).pc := by decide

/-- OtherOpcodesAreUnknownAndStopTheCore, UnknownOpcodeChangesNothingElse. -/
theorem witness_unknown_opcode : (start 253 [] []).pc ≤ 253 ∧ (decode (start 253 [] []).window).toOption = none ∧
    after (start 253 [] []) (fun t => t.status) = some (.halted (.unknownOpcode 0)) ∧
    Instr.wellFormed (.mod 7 8) = false := by decide

/-- RegIndexFaultIsPreciseAndNamesTheFirstBadField: both fields. -/
theorem witness_reg_index_fault : after (start 0 [69, 8] []) (fun t => t.status) = some (.halted (.regIndexFault .a 8)) ∧
    after (start 0 [160, 7, 8] []) (fun t => t.status) = some (.halted (.regIndexFault .b 8)) := by decide

/-- HaltedStateHasNoStep. -/
theorem witness_halted : (State.reset.halt .hlt).status = .halted .hlt ∧ 0 < 1 := by decide

/-- WellFormedInstructionsNeverFault. -/
theorem witness_well_formed : Instr.wellFormed (.mod 7 7) = true ∧ Instr.wellFormed .hlt = true ∧ State.reset.status = .running := by decide

/-- EveryHaltHasItsCause (the other two reasons are in `witness_unknown_opcode` and `witness_reg_index_fault`). -/
theorem witness_every_cause : after (start 253 [1] []) (fun t => t.status) = some (.halted .hlt) ∧
    after (start 0 [164, 7, 6] []) (fun t => t.status) = some (.halted .divZero) ∧
    after (start 254 [1] []) (fun t => t.status) = some (.halted (.fetchBoundsFault 256)) := by decide

/-- PcMovesByLengthOrToItsTarget: each way pc moves. -/
theorem witness_pc_moves : after (start 0 [160, 7, 7] []) (fun t => t.status) = some .running ∧ after (start 0 [84, 7] []) (fun t => t.status) = some .running ∧
    after (start 0 [17] []) (fun t => t.status) = some .running := by decide

/-- NextFetchSeesThePushedByte: each of the three bytes, at the highest pc. -/
theorem witness_next_fetch : (start 251 [69, 6] []).mem.wf ∧
    after (start 251 [69, 6] [(7, 254)]) (fun t => decide (t.pc = t.sp.toNat)) = some true ∧
    after (start 251 [69, 6] [(7, 255)]) (fun t => decide (t.pc + 1 = t.sp.toNat)) = some true ∧
    after (start 251 [69, 6] [(7, 0)]) (fun t => decide (t.pc + 2 = t.sp.toNat)) = some true := by decide

/-- DecodeOfEncodeIsTheInstruction. -/
theorem witness_decode_encode : windowOfBytes (encode (.add 8 255) ++ []) = some ⟨160, 8, 255⟩ ∧ windowOfBytes (encode .hlt ++ [0, 0]) = some ⟨1, 0, 0⟩ := by decide

/-- EncodeOfDecodeIsTheWindow. -/
theorem witness_encode_decode : decode ⟨1, 255, 255⟩ = .ok .hlt ∧ decode ⟨173, 255, 255⟩ = .ok (.shr 255 255) := by decide

/-- DecoderAcceptsExactlyTheTwentyOpcodes: both clauses. -/
theorem witness_opcodes : (0b10101101 : Byte).toNat ∈ [1, 17, 69, 70, 71, 80, 84, 85, 86, 130, 160, 162, 164, 167, 105, 168, 170, 171, 172, 173] ∧
    (0b10101110 : Byte).toNat ∉ [1, 17, 69, 70, 71, 80, 84, 85, 86, 130, 160, 162, 164, 167, 105, 168, 170, 171, 172, 173] := by decide

/-- PlacedInstructionRunsNext. -/
theorem witness_placed : (start 253 [] []).status = .running ∧ (start 253 [] []).pc ≤ 253 ∧ (start 253 [] []).mem.wf := by decide

/-- ImageIsPlacedFromAddressZero: both clauses. -/
theorem witness_image : (List.replicate 256 (1 : Byte)).length ≤ 256 ∧ 256 < (List.replicate 257 (1 : Byte)).length := by
  rw [List.length_replicate, List.length_replicate]
  decide

/-- EveryStepKeepsTheStateLegal. -/
theorem witness_legal_state : State.Inv { State.reset with pc := 253, fl := flL } ∧ isNext (step { State.reset with pc := 253, fl := flL }) = true := 
  ⟨⟨Memory.wf_nil, by decide, by decide, by decide, fun _ h => by cases h⟩, by decide⟩

/-- OnlyPushAndCallWriteMemory: PUSH and CALL. -/
theorem witness_memory_written : after (start 0 [69, 7] []) (fun t => decide (t.mem.read 254 ≠ (start 0 [69, 7] []).mem.read 254)) = some true ∧
    after (start 0 [80, 7] []) (fun t => decide (t.mem.read 254 ≠ (start 0 [80, 7] []).mem.read 254)) = some true := by decide

/-- OutputIsOnlyAppendedTo, OutputIsNeverRead. -/
theorem witness_run_prn : ∃ t, core.run 1 (start 0 [71, 7] []) = .next t := ⟨_, rfl⟩

/-- HaltIsFinal, with 0 < 1 steps. -/
theorem witness_run_halts : ∃ t, core.run 1 (start 0 [1] []) = .next t ∧ t.status = .halted .hlt ∧ core.run 0 (start 0 [1] []) = .next (start 0 [1] []) := ⟨_, rfl, rfl, rfl⟩

/-- ExitCodeIsZeroExactlyForCleanHalts: an image the load refuses. -/
theorem witness_load_failure : resetWithImage (List.replicate 257 0) = .error .imageTooLong := 
  if_neg (by rw [List.length_replicate]; decide)

/-- GreaterAndLessFlagsAreNeverRead. -/
theorem witness_flags_agree : flL.getLsbD 0 = flG.getLsbD 0 ∧ ∃ t, core.run 1 (start 0 [86, 7] []) = .next t := ⟨by decide, _, rfl⟩

end Sys2Proof.Tests
end

section
/-! PROOFS. What the decoder accepts and refuses (30_encoding.md R66, R69). -/

namespace Sys2Proof.Encoding

open Sys2Proof.Machine

/-! ## The opcodes -/

/-- The 20 opcode bytes of the Dispatch Table as numbers, in the order of 30_encoding.md R67. -/
def opcodeNumbers : List Nat :=
  [1, 17, 69, 70, 71, 80, 84, 85, 86, 130, 160, 162, 164, 167, 105, 168, 170, 171, 172, 173]

/-- One instruction for each row of the Dispatch Table, in the same order. -/
def tableRows : List Instr :=
  [.hlt, .ret, .push 0, .pop 0, .prn 0, .call 0, .jmp 0, .jeq 0, .jne 0, .ldi 0 0, .add 0 0, .mul 0 0, .mod 0 0,
    .cmp 0 0, .not 0, .and 0 0, .or 0 0, .xor 0 0, .shl 0 0, .shr 0 0]

/-- Operand values aside, every instruction is a row of the table. -/
theorem exists_row_of_instr (i : Instr) : ∃ r ∈ tableRows, opcode r = opcode i ∧ r.mnemonic = i.mnemonic := by
  cases i <;> simp [tableRows, opcode, Instr.mnemonic]

theorem map_opcode_tableRows : tableRows.map (fun r => (opcode r).toNat) = opcodeNumbers := rfl

/-- The listed numbers are the opcodes of instructions, and there is no other opcode. -/
theorem mem_opcodeNumbers_iff {b : Byte} : b.toNat ∈ opcodeNumbers ↔ ∃ i, opcode i = b := by
  rw [← map_opcode_tableRows, List.mem_map]
  constructor
  · rintro ⟨r, -, hr⟩
    exact ⟨r, BitVec.eq_of_toNat_eq hr⟩
  · rintro ⟨i, rfl⟩
    obtain ⟨r, hr, hop, -⟩ := exists_row_of_instr i
    exact ⟨r, hr, congrArg BitVec.toNat hop⟩

/-- No two rows share an opcode or a mnemonic. -/
theorem tableRows_opcode_eq_iff : ∀ r ∈ tableRows, ∀ q ∈ tableRows, opcode r = opcode q ↔ r.mnemonic = q.mnemonic := by
  decide

theorem opcode_eq_iff_mnemonic_eq (i j : Instr) : opcode i = opcode j ↔ i.mnemonic = j.mnemonic := by
  obtain ⟨r, hr, hri, hmi⟩ := exists_row_of_instr i
  obtain ⟨q, hq, hqj, hmj⟩ := exists_row_of_instr j
  rw [← hri, ← hqj, ← hmi, ← hmj]
  exact tableRows_opcode_eq_iff r hr q hq

/-! ## The decoder -/

/-- Everything the decoder can do. -/
theorem decode_cases (w : Window) :
    (∃ i, decode w = .ok i ∧ opcode i = w.ir) ∨ decode w = .error (.unknownOpcode w.ir) := by
  unfold decode
  split
  case h_21 => exact .inr rfl
  all_goals exact .inl ⟨_, rfl, BitVec.eq_of_toNat_eq (Eq.symm ‹_›)⟩

/-- An opcode decodes with any operand bytes. -/
theorem exists_decode_of_opcode {w : Window} {i : Instr} (h : opcode i = w.ir) :
    ∃ j, decode w = .ok j ∧ opcode j = w.ir := by
  obtain ⟨ir, a, b⟩ := w
  obtain rfl : opcode i = ir := h
  cases i <;> exact ⟨_, rfl, rfl⟩

theorem decode_of_not_opcode {w : Window} (h : ¬ ∃ i, opcode i = w.ir) : decode w = .error (.unknownOpcode w.ir) := by
  rcases decode_cases w with ⟨i, -, hi⟩ | he
  · exact absurd ⟨i, hi⟩ h
  · exact he

/-- Whether a window decodes depends on its first byte alone. -/
theorem decode_isSome_iff {w : Window} : (decode w).toOption.isSome = true ↔ ∃ i, opcode i = w.ir := by
  constructor
  · intro h
    by_contra hno
    rw [decode_of_not_opcode hno] at h
    cases h
  · rintro ⟨i, hi⟩
    obtain ⟨j, hj, -⟩ := exists_decode_of_opcode hi
    rw [hj]
    rfl

theorem decode_eq_error_of_toOption_eq_none {w : Window} (h : (decode w).toOption = none) :
    decode w = .error (.unknownOpcode w.ir) := by
  rcases decode_cases w with ⟨i, hi, -⟩ | he
  · rw [hi] at h
    cases h
  · exact he

theorem decode_isNone_eq (n : Nat) (hn : n < 256) (a b : Byte) :
    (decode ⟨BitVec.ofNat 8 n, a, b⟩).toOption.isNone = decide (n ∉ opcodeNumbers) := by
  have hmem : n ∈ opcodeNumbers ↔ ∃ i, opcode i = BitVec.ofNat 8 n := by
    rw [← mem_opcodeNumbers_iff, BitVec.toNat_ofNat, Nat.mod_eq_of_lt hn]
  rw [← Option.not_isSome, Bool.eq_iff_iff, Bool.not_eq_true', ← Bool.not_eq_true, decode_isSome_iff,
    decide_eq_true_iff, hmem]

/-- Dropping the members of a duplicate-free part takes away its length. -/
theorem length_filter_notMem {l m : List Nat} (hl : l.Nodup) (hm : m.Nodup) (hsub : m ⊆ l) :
    (l.filter (· ∉ m)).length = l.length - m.length := by
  have hperm := List.subperm_append_diff_self_of_count_le (List.subperm_ext_iff.1 (hm.subperm hsub))
  have hlen := hperm.length_eq
  rw [List.length_append, hl.sdiff_eq_filter] at hlen
  omega

/-- The bytes that do not decode are the 256 without the 20 opcodes. -/
theorem length_filter_undecodable :
    ((List.range 256).filter fun n => (decode ⟨BitVec.ofNat 8 n, 0, 0⟩).toOption.isNone).length = 236 := by
  have hsub : opcodeNumbers ⊆ List.range 256 := fun n hn => by
    obtain ⟨r, -, rfl⟩ := List.mem_map.1 (map_opcode_tableRows ▸ hn)
    exact List.mem_range.2 (opcode r).isLt
  rw [List.filter_congr fun n hn => decode_isNone_eq n (List.mem_range.1 hn) 0 0,
    length_filter_notMem List.nodup_range (by decide) hsub, List.length_range]
  rfl

/-! ## The stop at an unknown opcode -/

theorem fetch_of_pc_le {s : State} (h : s.pc ≤ 253) : fetch s = .ok s.window := by
  have hin : outsideWindow s.pc = none := outsideWindow_eq_none.2 (by omega)
  simp only [fetch, hin]

/-- Fetching an unknown opcode halts the core with that byte recorded, and changes nothing else (R141, R146). -/
theorem step_of_unknownOpcode {s : State} {ir : Byte} (hrun : s.status = .running) (hpc : s.pc ≤ 253)
    (hd : decode s.window = .error (.unknownOpcode ir)) : step s = .next (s.halt (.unknownOpcode ir)) := by
  simp only [step, hrun, fetch_of_pc_le hpc, hd, raise]

/-! ## The stop at a bad register index -/

/-- An instruction that begins with an index check stops there when the index is bad. -/
theorem raisesRegIndexFault_of_withReg {i : Instr} {s : State} {field : OperandField} {b : Byte}
    {k : Fin Config.nReg → Result} (hi : exec i s = withReg field b s k) (hb : 8 ≤ b.toNat) :
    RaisesRegIndexFault i s :=
  ⟨s.halt (.regIndexFault field b), field, b, hi.trans (withReg_of_ge hb), rfl, rfl⟩

/-- An instruction that checks two indices stops when either is bad. -/
theorem raisesRegIndexFault_of_withRegs {i : Instr} {s : State} {a b : Byte}
    {k : Fin Config.nReg → Fin Config.nReg → Result} (hi : exec i s = withRegs a b s k)
    (hab : 8 ≤ a.toNat ∨ 8 ≤ b.toNat) : RaisesRegIndexFault i s := by
  by_cases ha : a.toNat < 8
  · exact raisesRegIndexFault_of_withReg (hi.trans (withReg_of_lt ha)) (hab.resolve_left (Nat.not_le.2 ha))
  · exact raisesRegIndexFault_of_withReg hi (Nat.not_lt.1 ha)

theorem wellFormed_eq_false_iff {i : Instr} : i.wellFormed = false ↔ ∃ b ∈ i.registerOperands, 8 ≤ b.toNat := by
  simp [Instr.wellFormed, namesRegister]

/-- Every instruction but JEQ and JNE uses all its indices before anything else (R143, R146). -/
theorem raisesRegIndexFault_of_not_wellFormed {i : Instr} (s : State) (hwf : i.wellFormed = false)
    (hjeq : ∀ a, i ≠ .jeq a) (hjne : ∀ a, i ≠ .jne a) : RaisesRegIndexFault i s := by
  obtain ⟨c, hc, h8⟩ := wellFormed_eq_false_iff.1 hwf
  cases i with
  | hlt | ret => cases hc
  | jeq a => exact absurd rfl (hjeq a)
  | jne a => exact absurd rfl (hjne a)
  | push a | pop a | prn a | call a | jmp a | not a | ldi a imm =>
    obtain rfl := List.mem_singleton.1 hc
    exact raisesRegIndexFault_of_withReg rfl h8
  | add a b | mul a b | mod a b | cmp a b | and a b | or a b | xor a b | shl a b | shr a b =>
    refine raisesRegIndexFault_of_withRegs rfl ?_
    rcases List.mem_pair.1 hc with rfl | rfl
    · exact .inl h8
    · exact .inr h8

/-! ## The obligations -/

/-- Settles O33: a byte that is no opcode does not decode, whatever the operand bytes, and halts the core; a bad index
stops every instruction that checks its indices first. -/
theorem otherOpcodesAreUnknownAndStopTheCore : Obligations.OtherOpcodesAreUnknownAndStopTheCore := by
  unfold Obligations.OtherOpcodesAreUnknownAndStopTheCore
  refine ⟨length_filter_undecodable, fun w w' hir => ?_, rfl, fun s hrun hpc hnone => ?_, fun i s => ?_⟩
  · rw [Bool.eq_iff_iff, decode_isSome_iff, decode_isSome_iff, hir]
  · have hd := decode_eq_error_of_toOption_eq_none hnone
    exact ⟨_, step_of_unknownOpcode hrun hpc hd, rfl, rfl⟩
  · exact raisesRegIndexFault_of_not_wellFormed s

/-- Settles O44: the listed bytes are the opcodes of the instructions, so the decoder accepts exactly those, and one row
of the table has each opcode and each mnemonic. -/
theorem decoderAcceptsExactlyTheTwentyOpcodes : Obligations.DecoderAcceptsExactlyTheTwentyOpcodes := by
  unfold Obligations.DecoderAcceptsExactlyTheTwentyOpcodes
  refine ⟨fun w => ⟨fun hmem => ?_, fun hnot => ?_⟩, opcode_eq_iff_mnemonic_eq⟩
  · obtain ⟨i, hi⟩ := mem_opcodeNumbers_iff.1 hmem
    exact exists_decode_of_opcode hi
  · exact decode_of_not_opcode (mt mem_opcodeNumbers_iff.2 hnot)

end Sys2Proof.Encoding
end

section
/-! PROOFS. The two-register ALU instructions and CMP (40_alu.md R80 to R91): the shape they share proved once, then each
operation's result on natural numbers. -/

namespace Sys2Proof.Alu

open Sys2Proof.Machine Sys2Proof.Encoding

/-! ## The check of the register indices (60_exceptions.md R143) -/

/-- A handler that begins with an index check stops there on a bad index, naming its field and byte. -/
theorem raisesRegIndexFaultOf_of_withReg {i : Instr} {s : State} {field : OperandField} {b : Byte}
    {k : Fin Config.nReg → Result} (hi : exec i s = withReg field b s k) (hb : 8 ≤ b.toNat) :
    RaisesRegIndexFaultOf field b i s :=
  ⟨s.halt (.regIndexFault field b), hi.trans (withReg_of_ge hb), rfl, rfl⟩

theorem checksBothIndices_of_withRegs {a b : Byte} {i : Instr} {s : State}
    {k : Fin Config.nReg → Fin Config.nReg → Result} (hi : exec i s = withRegs a b s k) :
    ChecksBothIndices a b i s := by
  refine ⟨fun ⟨ha, _⟩ => ?_, fun ⟨ha, hb⟩ => ?_, fun ⟨ha, _⟩ => ?_⟩
  · exact raisesRegIndexFaultOf_of_withReg hi ha
  · exact raisesRegIndexFaultOf_of_withReg (hi.trans (withReg_of_lt ha)) hb
  · exact raisesRegIndexFault_of_withRegs hi (.inl ha)

theorem withRegs_of_lt {a b : Byte} {s : State} {k : Fin Config.nReg → Fin Config.nReg → Result}
    (ha : a.toNat < 8) (hb : b.toNat < 8) : withRegs a b s k = k ⟨a.toNat, ha⟩ ⟨b.toNat, hb⟩ :=
  (withReg_of_lt ha).trans (withReg_of_lt hb)

/-! ## The shape of a two-register operation (R80) -/

/-- An instruction encoded in format AB whose handler is `aluTwo g` obeys the rule of `f`, the operation that `g` computes
on natural numbers. -/
theorem twoRegisterRule_of_aluTwo {mk : Byte → Byte → Instr} {code : Byte} {f : Nat → Nat → Nat} {g : Byte → Byte → Byte}
    (hcode : ∀ a b, encode (mk a b) = [code, a, b] ∧ decode ⟨code, a, b⟩ = .ok (mk a b))
    (hexec : ∀ a b s, exec (mk a b) s = aluTwo g a b s)
    (hg : ∀ va vb, (g va vb).toNat = f va.toNat vb.toNat) : TwoRegisterRule mk code f := by
  intro a b s
  refine ⟨hcode a b, fun ha hb => ?_, checksBothIndices_of_withRegs (hexec a b s)⟩
  refine ⟨_, (hexec a b s).trans (withRegs_of_lt ha hb), ?_, fun k hk => ?_, rfl, rfl⟩
  · rw [State.advance_reg, State.setReg_reg_self, hg]
  · rw [State.advance_reg, State.setReg_reg_of_ne _ _ (Fin.ne_of_val_ne hk)]

/-! ## The results on natural numbers (R81) -/

@[simp] theorem narrow_toNat (n : Nat) : (narrow n).toNat = n % 256 := BitVec.toNat_ofNat n 8

theorem narrow_toNat_of_lt {n : Nat} (h : n < 2 ^ 8) : (narrow n).toNat = n :=
  (narrow_toNat n).trans (Nat.mod_eq_of_lt h)

theorem aluAdd_toNat (va vb : Byte) : (aluAdd va vb).toNat = (va.toNat + vb.toNat) % 256 := narrow_toNat _

theorem aluMul_toNat (va vb : Byte) : (aluMul va vb).toNat = va.toNat * vb.toNat % 256 := narrow_toNat _

theorem aluAnd_toNat (va vb : Byte) : (aluAnd va vb).toNat = va.toNat &&& vb.toNat :=
  narrow_toNat_of_lt (Nat.and_lt_two_pow _ vb.isLt)

theorem aluOr_toNat (va vb : Byte) : (aluOr va vb).toNat = va.toNat ||| vb.toNat :=
  narrow_toNat_of_lt (Nat.or_lt_two_pow va.isLt vb.isLt)

theorem aluXor_toNat (va vb : Byte) : (aluXor va vb).toNat = va.toNat ^^^ vb.toNat :=
  narrow_toNat_of_lt (Nat.xor_lt_two_pow va.isLt vb.isLt)

theorem aluShr_toNat (va vb : Byte) : (aluShr va vb).toNat = va.toNat / 2 ^ vb.toNat := by
  have hlt : va.toNat / 2 ^ vb.toNat < 2 ^ 8 := (Nat.div_le_self _ _).trans_lt va.isLt
  rw [aluShr, Nat.shiftRight_eq_div_pow, narrow_toNat_of_lt hlt]

/-! ## What CMP writes into `fl` (R85) -/

theorem compareFlags_of_eq {va vb : Byte} (h : va.toNat = vb.toNat) : compareFlags va vb = flE := if_pos h

theorem compareFlags_of_gt {va vb : Byte} (h : va.toNat > vb.toNat) : compareFlags va vb = flG :=
  (if_neg h.ne').trans (if_pos h)

theorem compareFlags_of_lt {va vb : Byte} (h : va.toNat < vb.toNat) : compareFlags va vb = flL :=
  (if_neg h.ne).trans (if_neg h.not_gt)

/-- The three values are different and each stands for one of the three orders, so each names its order. -/
theorem compareFlags_iff (va vb : Byte) :
    (compareFlags va vb = 1 ↔ va.toNat = vb.toNat) ∧ (compareFlags va vb = 2 ↔ va.toNat > vb.toNat) ∧
    (compareFlags va vb = 4 ↔ va.toNat < vb.toNat) := by
  rcases Nat.lt_trichotomy va.toNat vb.toNat with h | h | h
  · simp [compareFlags_of_lt h, flL, h, h.ne, h.le]
  · simp [compareFlags_of_eq h, flE, h]
  · simp [compareFlags_of_gt h, flG, h, h.ne', h.le]

/-! ## CMP is the one writer of `fl` (R28, R85) -/

theorem fl_eq_of_next {s t u : State} (h : (.next u : Result) = .next t) (hu : u.fl = s.fl) : t.fl = s.fl :=
  Host.Outcome.next.inj h ▸ hu

/-- A one-index handler whose next states all have the old `fl` keeps `fl`, since the fault keeps it too. -/
theorem fl_eq_of_withReg {field : OperandField} {b : Byte} {s t : State} {next : Fin Config.nReg → State}
    (h : withReg field b s (fun i => .next (next i)) = .next t) (hnext : ∀ i, (next i).fl = s.fl) : t.fl = s.fl := by
  rcases withReg_cases h with ⟨hb, h⟩ | ⟨-, rfl⟩
  · exact fl_eq_of_next h (hnext _)
  · rfl

theorem fl_eq_of_jumpToReg {a : Byte} {s t : State} (h : jumpToReg a s = .next t) : t.fl = s.fl :=
  fl_eq_of_withReg h fun _ => rfl

theorem fl_eq_of_aluTwo {f : Byte → Byte → Byte} {a b : Byte} {s t : State} (h : aluTwo f a b s = .next t) :
    t.fl = s.fl := by
  rcases aluTwo_cases h with ⟨_, _, rfl⟩ | ⟨-, rfl⟩ | ⟨-, -, rfl⟩ <;> rfl

theorem fl_eq_of_execMod {a b : Byte} {s t : State} (h : execMod a b s = .next t) : t.fl = s.fl := by
  rcases withRegs_cases h with ⟨_, _, h⟩ | ⟨-, rfl⟩ | ⟨-, -, rfl⟩
  · split at h
    · exact fl_eq_of_next h rfl
    · exact fl_eq_of_next h rfl
  · rfl
  · rfl

theorem exec_fl_eq_of_ne_cmp {i : Instr} {s t : State} (h : exec i s = .next t) (hi : ∀ a b, i ≠ .cmp a b) :
    t.fl = s.fl := by
  cases i with
  | cmp a b => exact absurd rfl (hi a b)
  | hlt | ret => exact fl_eq_of_next h rfl
  | push | pop | prn | call | not | ldi => exact fl_eq_of_withReg h fun _ => rfl
  | jmp => exact fl_eq_of_jumpToReg h
  | jeq a =>
    cases he : s.equalFlag <;> simp only [exec, execJeq, he] at h
    · exact fl_eq_of_next h rfl
    · exact fl_eq_of_jumpToReg h
  | jne a =>
    cases he : s.equalFlag <;> simp only [exec, execJne, he] at h
    · exact fl_eq_of_jumpToReg h
    · exact fl_eq_of_next h rfl
  | mod => exact fl_eq_of_execMod h
  | add | mul | and | or | xor | shl | shr => exact fl_eq_of_aluTwo h

/-! ## The obligations -/

/-- Settles O4: the written value names the order of the two registers, and every other handler keeps `fl`. -/
theorem cmpSetsExactlyOneFlagByUnsignedOrder : Obligations.CmpSetsExactlyOneFlagByUnsignedOrder := by
  unfold Obligations.CmpSetsExactlyOneFlagByUnsignedOrder
  refine ⟨fun a b s => ⟨⟨rfl, rfl⟩, fun ha hb => ?_, checksBothIndices_of_withRegs rfl⟩, fun i s t h hne => ?_⟩
  · obtain ⟨hE, hG, hL⟩ := compareFlags_iff (s.reg ⟨a.toNat, ha⟩) (s.reg ⟨b.toNat, hb⟩)
    exact ⟨_, withRegs_of_lt ha hb, hE, hG, hL, rfl, rfl⟩
  · by_contra! hno
    exact hne (exec_fl_eq_of_ne_cmp h hno)

/-- Settles O1: ADD has the shared shape, with the sum reduced to a byte. -/
theorem addWritesSumModulo256 : Obligations.AddWritesSumModulo256 :=
  twoRegisterRule_of_aluTwo (fun _ _ => ⟨rfl, rfl⟩) (fun _ _ _ => rfl) aluAdd_toNat

/-- Settles O2: MUL has the shared shape, with the product reduced to a byte. -/
theorem mulWritesLowByteOfProduct : Obligations.MulWritesLowByteOfProduct :=
  twoRegisterRule_of_aluTwo (fun _ _ => ⟨rfl, rfl⟩) (fun _ _ _ => rfl) aluMul_toNat

/-- Settles O5: AND has the shared shape, and the conjunction of two bytes is a byte. -/
theorem andWritesBitwiseAnd : Obligations.AndWritesBitwiseAnd :=
  twoRegisterRule_of_aluTwo (fun _ _ => ⟨rfl, rfl⟩) (fun _ _ _ => rfl) aluAnd_toNat

/-- Settles O6: OR has the shared shape, and the disjunction of two bytes is a byte. -/
theorem orWritesBitwiseOr : Obligations.OrWritesBitwiseOr :=
  twoRegisterRule_of_aluTwo (fun _ _ => ⟨rfl, rfl⟩) (fun _ _ _ => rfl) aluOr_toNat

/-- Settles O7: XOR has the shared shape, and the exclusive or of two bytes is a byte. -/
theorem xorWritesBitwiseXor : Obligations.XorWritesBitwiseXor :=
  twoRegisterRule_of_aluTwo (fun _ _ => ⟨rfl, rfl⟩) (fun _ _ _ => rfl) aluXor_toNat

/-- Settles O10: SHR has the shared shape, and a logical right shift of a byte is a quotient no larger than it. -/
theorem shrDividesByPowerOfTwo : Obligations.ShrDividesByPowerOfTwo :=
  twoRegisterRule_of_aluTwo (fun _ _ => ⟨rfl, rfl⟩) (fun _ _ _ => rfl) aluShr_toNat

end Sys2Proof.Alu
end

section
/-! PROOFS. The immediate load (41_data_stack_io.md R101). -/

namespace Sys2Proof.DataStackIo

open Sys2Proof.Machine Sys2Proof.Alu

/-- LDI with a register index writes the immediate there and advances past its three bytes. -/
theorem exec_ldi_of_lt {a : Byte} (imm : Byte) (s : State) (ha : a.toNat < 8) :
    exec (.ldi a imm) s = .next ((s.setReg ⟨a.toNat, ha⟩ imm).advance 3) :=
  withReg_of_lt ha

/-- Settles O12: below 8 the written register reads as the immediate and the others as before; from 8 on the index check
stops the instruction. -/
theorem ldiWritesTheImmediate : Obligations.LdiWritesTheImmediate := by
  unfold Obligations.LdiWritesTheImmediate
  refine fun a imm s => ⟨⟨rfl, rfl⟩, fun ha => ?_, raisesRegIndexFaultOf_of_withReg rfl⟩
  refine ⟨_, exec_ldi_of_lt imm s ha, ?_, fun k hk => ?_, rfl, rfl⟩
  · rw [State.advance_reg, State.setReg_reg_self]
  · rw [State.advance_reg, State.setReg_reg_of_ne _ _ (Fin.ne_of_val_ne hk)]

end Sys2Proof.DataStackIo
end

section
/-! PROOFS. HLT and JMP (42_control.md R121, R122): the two ways a step of a running core goes on after the fetch, then
what each instruction does and where its next fetch lands. -/

namespace Sys2Proof.Control

open Sys2Proof.Machine Sys2Proof.Encoding Sys2Proof.Alu

/-! ## The step of a running core (R120) -/

theorem fetch_of_le_pc {s : State} (h : 254 ≤ s.pc) : fetch s = .error (.fetchBoundsFault (max s.pc 256)) := by
  cases ho : outsideWindow s.pc with
  | none =>
    have := outsideWindow_eq_none.1 ho
    omega
  | some addr =>
    obtain ⟨-, rfl⟩ := outsideWindow_eq_some ho
    simp only [fetch, ho]

/-- A fetch that leaves memory halts the core before anything is decoded (R142). -/
theorem step_of_le_pc {s : State} (hrun : s.status = .running) (hpc : 254 ≤ s.pc) :
    step s = .next (s.halt (.fetchBoundsFault (max s.pc 256))) := by
  simp only [step, hrun, fetch_of_le_pc hpc, raise]

/-- From 254 to 256 the lowest address of the fetch window outside memory is 256 (20_memory.md R44). -/
theorem exists_step_fetchBoundsFault_256 {s : State} (hrun : s.status = .running) (hlo : 254 ≤ s.pc)
    (hhi : s.pc ≤ 256) : ∃ t, step s = .next t ∧ t.status = .halted (.fetchBoundsFault 256) := by
  refine ⟨_, step_of_le_pc hrun hlo, ?_⟩
  rw [State.halt_status, max_eq_right hhi]

theorem step_of_decode {s : State} {i : Instr} (hrun : s.status = .running) (hpc : s.pc ≤ 253)
    (hd : decode s.window = .ok i) : step s = exec i s := by
  simp only [step, hrun, fetch_of_pc_le hpc, hd]

/-! ## JMP -/

theorem exec_jmp_of_lt {a : Byte} (s : State) (ha : a.toNat < 8) :
    exec (.jmp a) s = .next (s.setPc (s.reg ⟨a.toNat, ha⟩).toNat) :=
  withReg_of_lt ha

/-- A JMP whose register holds its own address steps to the same state (R122). -/
theorem step_of_jmp_self {a : Byte} {s : State} (ha : a.toNat < 8) (hrun : s.status = .running) (hpc : s.pc ≤ 253)
    (hd : decode s.window = .ok (.jmp a)) (hself : (s.reg ⟨a.toNat, ha⟩).toNat = s.pc) : step s = .next s := by
  calc step s = exec (.jmp a) s := step_of_decode hrun hpc hd
    _ = .next (s.setPc (s.reg ⟨a.toNat, ha⟩).toNat) := exec_jmp_of_lt s ha
    _ = .next (s.setPc s.pc) := by rw [hself]
    _ = .next s := rfl

/-! ## The obligations -/

/-- Settles O16: the handler is one state update, and at 254 and 255 the fetch window leaves memory. -/
theorem hltHaltsAfterItself : Obligations.HltHaltsAfterItself := by
  unfold Obligations.HltHaltsAfterItself
  refine ⟨⟨rfl, fun _ _ => rfl⟩, rfl, fun _ => rfl, fun s hrun hpc => ?_⟩
  exact exists_step_fetchBoundsFault_256 hrun (by omega) (by omega)

/-- Settles O17: the jump sets pc to a byte, so a target outside the fetch window is 254 or 255, and a target equal to pc
leaves the state as it is. -/
theorem jmpTakesTheWholeRegister : Obligations.JmpTakesTheWholeRegister := by
  unfold Obligations.JmpTakesTheWholeRegister
  refine ⟨fun _ _ => ⟨rfl, rfl⟩, fun a s => raisesRegIndexFaultOf_of_withReg rfl, fun a s ha => ?_⟩
  refine ⟨_, exec_jmp_of_lt s ha, rfl, fun hrun hout => ?_, step_of_jmp_self ha⟩
  have hbyte : (s.reg ⟨a.toNat, ha⟩).toNat ≤ 256 := (s.reg ⟨a.toNat, ha⟩).isLt.le
  exact exists_step_fetchBoundsFault_256 hrun hout hbyte

end Sys2Proof.Control
end

section
/-! PROOFS. What each handler can do, said once: the next states of `exec` as rules, the bad index among them, and the
two directions that tie the rules to `exec`. Later proofs split on the rules. -/

namespace Sys2Proof.ExecRules

open Sys2Proof.Machine Sys2Proof.Encoding Sys2Proof.Alu Sys2Proof.DataStackIo Sys2Proof.Control

/-- The operation and the operands of an instruction whose handler is `aluTwo` (40_alu.md R80). -/
def aluOperation : Instr → Option ((Byte → Byte → Byte) × Byte × Byte)
  | .add a b => some (aluAdd, a, b)
  | .mul a b => some (aluMul, a, b)
  | .and a b => some (aluAnd, a, b)
  | .or a b => some (aluOr, a, b)
  | .xor a b => some (aluXor, a, b)
  | .shl a b => some (aluShl, a, b)
  | .shr a b => some (aluShr, a, b)
  | _ => none

/-- The operand bytes a handler uses as register indices, given the Equal flag: JEQ and JNE use theirs only when taken
(the spec's decision D21). -/
def usedIndices : Instr → Bool → List Byte
  | .jeq a, equal => if equal then [a] else []
  | .jne a, equal => if equal then [] else [a]
  | i, _ => i.registerOperands

/-- `Executes i s t`: the handler of `i` takes `s` to `t`. One rule per way to complete, and one per bad index. -/
inductive Executes : Instr → State → State → Prop
  | hlt {s} : Executes .hlt s ((s.advance 1).halt .hlt)
  | ret {s} : Executes .ret s (s.setPc s.loadAtSp.toNat).incSp
  | push {a s} (ha : a.toNat < 8) :
    Executes (.push a) s ((s.decSp.storeAtSp (s.decSp.reg ⟨a.toNat, ha⟩)).advance 2)
  | pop {a s} (ha : a.toNat < 8) : Executes (.pop a) s ((s.setReg ⟨a.toNat, ha⟩ s.loadAtSp).incSp.advance 2)
  | prn {a s} (ha : a.toNat < 8) : Executes (.prn a) s ((s.emit (s.reg ⟨a.toNat, ha⟩)).advance 2)
  | call {a s} (ha : a.toNat < 8) :
    Executes (.call a) s ((s.decSp.storeAtSp (narrow (s.pc + 2))).setPc (s.decSp.reg ⟨a.toNat, ha⟩).toNat)
  | jmp {a s} (ha : a.toNat < 8) : Executes (.jmp a) s (s.setPc (s.reg ⟨a.toNat, ha⟩).toNat)
  | jeqTaken {a s} (ha : a.toNat < 8) (he : s.equalFlag = true) :
    Executes (.jeq a) s (s.setPc (s.reg ⟨a.toNat, ha⟩).toNat)
  | jeqPassed {a s} (he : s.equalFlag = false) : Executes (.jeq a) s (s.advance 2)
  | jneTaken {a s} (ha : a.toNat < 8) (he : s.equalFlag = false) :
    Executes (.jne a) s (s.setPc (s.reg ⟨a.toNat, ha⟩).toNat)
  | jnePassed {a s} (he : s.equalFlag = true) : Executes (.jne a) s (s.advance 2)
  | not {a s} (ha : a.toNat < 8) :
    Executes (.not a) s ((s.setReg ⟨a.toNat, ha⟩ (aluNot (s.reg ⟨a.toNat, ha⟩))).advance 2)
  | ldi {a imm s} (ha : a.toNat < 8) : Executes (.ldi a imm) s ((s.setReg ⟨a.toNat, ha⟩ imm).advance 3)
  | alu {i f a b s} (hi : aluOperation i = some (f, a, b)) (ha : a.toNat < 8) (hb : b.toNat < 8) :
    Executes i s ((s.setReg ⟨a.toNat, ha⟩ (f (s.reg ⟨a.toNat, ha⟩) (s.reg ⟨b.toNat, hb⟩))).advance 3)
  | mod {a b s} (ha : a.toNat < 8) (hb : b.toNat < 8) (h0 : s.reg ⟨b.toNat, hb⟩ ≠ 0) :
    Executes (.mod a b) s
      ((s.setReg ⟨a.toNat, ha⟩ (aluMod (s.reg ⟨a.toNat, ha⟩) (s.reg ⟨b.toNat, hb⟩))).advance 3)
  | modZero {a b s} (ha : a.toNat < 8) (hb : b.toNat < 8) (h0 : s.reg ⟨b.toNat, hb⟩ = 0) :
    Executes (.mod a b) s ((s.advance Config.divZeroPcAdvance).halt .divZero)
  | cmp {a b s} (ha : a.toNat < 8) (hb : b.toNat < 8) :
    Executes (.cmp a b) s ((s.setFl (compareFlags (s.reg ⟨a.toNat, ha⟩) (s.reg ⟨b.toNat, hb⟩))).advance 3)
  | badA {i v s} (hi : (usedIndices i s.equalFlag).head? = some v) (hv : 8 ≤ v.toNat) :
    Executes i s (s.halt (.regIndexFault .a v))
  | badB {i first v s} (hi : usedIndices i s.equalFlag = [first, v]) (hfirst : first.toNat < 8) (hv : 8 ≤ v.toNat) :
    Executes i s (s.halt (.regIndexFault .b v))

/-! ## The two ways of a conditional jump (42_control.md R123, R124) -/

theorem exec_jeq_taken {a : Byte} {s : State} (he : s.equalFlag = true) : exec (.jeq a) s = jumpToReg a s := if_pos he

theorem exec_jeq_passed {a : Byte} {s : State} (he : s.equalFlag = false) : exec (.jeq a) s = .next (s.advance 2) :=
  if_neg (Bool.eq_false_iff.1 he)

theorem exec_jne_taken {a : Byte} {s : State} (he : s.equalFlag = false) : exec (.jne a) s = jumpToReg a s :=
  if_neg (Bool.eq_false_iff.1 he)

theorem exec_jne_passed {a : Byte} {s : State} (he : s.equalFlag = true) : exec (.jne a) s = .next (s.advance 2) :=
  if_pos he

/-! ## From `exec` to a rule -/

theorem executes_of_withReg {i : Instr} {a : Byte} {s t : State} {next : Fin Config.nReg → State}
    (h : withReg .a a s (fun j => .next (next j)) = .next t) (hused : (usedIndices i s.equalFlag).head? = some a)
    (hnext : ∀ ha : a.toNat < 8, Executes i s (next ⟨a.toNat, ha⟩)) : Executes i s t := by
  rcases withReg_cases h with ⟨ha, h⟩ | ⟨ha, rfl⟩
  · exact Host.Outcome.next.inj h ▸ hnext ha
  · exact .badA hused ha

theorem executes_of_withRegs {i : Instr} {a b : Byte} {s t : State} {k : Fin Config.nReg → Fin Config.nReg → Result}
    (h : withRegs a b s k = .next t) (hused : usedIndices i s.equalFlag = [a, b])
    (hk : ∀ (ha : a.toNat < 8) (hb : b.toNat < 8), k ⟨a.toNat, ha⟩ ⟨b.toNat, hb⟩ = .next t → Executes i s t) :
    Executes i s t := by
  rcases withRegs_cases h with ⟨ha, hb, h⟩ | ⟨ha, rfl⟩ | ⟨ha, hb, rfl⟩
  · exact hk ha hb h
  · exact .badA (congrArg List.head? hused) ha
  · exact .badB hused ha hb

theorem executes_of_aluTwo {i : Instr} {f : Byte → Byte → Byte} {a b : Byte} {s t : State}
    (h : aluTwo f a b s = .next t) (hi : aluOperation i = some (f, a, b))
    (hused : usedIndices i s.equalFlag = [a, b]) : Executes i s t :=
  executes_of_withRegs h hused fun ha hb h => Host.Outcome.next.inj h ▸ .alu hi ha hb

/-- Everything a handler can do. -/
theorem executes_of_exec {i : Instr} {s t : State} (h : exec i s = .next t) : Executes i s t := by
  cases i with
  | hlt => exact Host.Outcome.next.inj h ▸ .hlt
  | ret => exact Host.Outcome.next.inj h ▸ .ret
  | push => exact executes_of_withReg h rfl .push
  | pop => exact executes_of_withReg h rfl .pop
  | prn => exact executes_of_withReg h rfl .prn
  | call => exact executes_of_withReg h rfl .call
  | jmp => exact executes_of_withReg h rfl .jmp
  | jeq a =>
    cases he : s.equalFlag
    · exact Host.Outcome.next.inj ((exec_jeq_passed he).symm.trans h) ▸ .jeqPassed he
    · exact executes_of_withReg ((exec_jeq_taken he).symm.trans h) (by simp [usedIndices, he]) fun ha => .jeqTaken ha he
  | jne a =>
    cases he : s.equalFlag
    · exact executes_of_withReg ((exec_jne_taken he).symm.trans h) (by simp [usedIndices, he]) fun ha => .jneTaken ha he
    · exact Host.Outcome.next.inj ((exec_jne_passed he).symm.trans h) ▸ .jnePassed he
  | not => exact executes_of_withReg h rfl .not
  | ldi => exact executes_of_withReg h rfl .ldi
  | mod a b =>
    refine executes_of_withRegs h rfl fun ha hb h => ?_
    split at h
    · next h0 => exact Host.Outcome.next.inj h ▸ .modZero ha hb h0
    · next h0 => exact Host.Outcome.next.inj h ▸ .mod ha hb h0
  | cmp => exact executes_of_withRegs h rfl fun ha hb h => Host.Outcome.next.inj h ▸ .cmp ha hb
  | add | mul | and | or | xor | shl | shr => exact executes_of_aluTwo h rfl rfl

/-! ## From a rule to `exec` -/

/-- A two-register handler checks both indices first. -/
theorem exec_eq_withRegs {i : Instr} {a b : Byte} {s : State} (h : usedIndices i s.equalFlag = [a, b]) :
    ∃ k, exec i s = withRegs a b s k := by
  cases i with
  | hlt | ret | push | pop | prn | call | jmp | not | ldi => cases h
  | jeq | jne => cases he : s.equalFlag <;> simp [usedIndices, he] at h
  | add | mul | mod | cmp | and | or | xor | shl | shr => cases h; exact ⟨_, rfl⟩

/-- A handler that uses a register index checks the first one first. -/
theorem exec_eq_withReg {i : Instr} {a : Byte} {s : State} (h : (usedIndices i s.equalFlag).head? = some a) :
    ∃ k, exec i s = withReg .a a s k := by
  cases i with
  | hlt | ret => cases h
  | jeq b =>
    cases he : s.equalFlag <;> simp only [usedIndices, he] at h
    · cases h
    · cases h; exact ⟨_, exec_jeq_taken he⟩
  | jne b =>
    cases he : s.equalFlag <;> simp only [usedIndices, he] at h
    · cases h; exact ⟨_, exec_jne_taken he⟩
    · cases h
  | push | pop | prn | call | jmp | not | ldi => cases h; exact ⟨_, rfl⟩
  | add | mul | mod | cmp | and | or | xor | shl | shr => cases h; exact ⟨_, rfl⟩

theorem exec_eq_aluTwo {i : Instr} {f : Byte → Byte → Byte} {a b : Byte} (s : State)
    (h : aluOperation i = some (f, a, b)) : exec i s = aluTwo f a b s := by
  cases i <;> cases h <;> rfl

/-- Every rule is what the handler does. -/
theorem exec_of_executes {i : Instr} {s t : State} (h : Executes i s t) : exec i s = .next t := by
  cases h with
  | hlt | ret => rfl
  | push ha | pop ha | prn ha | call ha | jmp ha | not ha | ldi ha => exact withReg_of_lt ha
  | jeqTaken ha he => exact (exec_jeq_taken he).trans (withReg_of_lt ha)
  | jeqPassed he => exact exec_jeq_passed he
  | jneTaken ha he => exact (exec_jne_taken he).trans (withReg_of_lt ha)
  | jnePassed he => exact exec_jne_passed he
  | alu hi ha hb => exact (exec_eq_aluTwo s hi).trans (withRegs_of_lt ha hb)
  | mod ha hb h0 => exact (withRegs_of_lt ha hb).trans (if_neg h0)
  | modZero ha hb h0 => exact (withRegs_of_lt ha hb).trans (if_pos h0)
  | cmp ha hb => exact withRegs_of_lt ha hb
  | badA hi hv =>
    obtain ⟨k, hk⟩ := exec_eq_withReg hi
    exact hk.trans (withReg_of_ge hv)
  | badB hi hfirst hv =>
    obtain ⟨k, hk⟩ := exec_eq_withRegs hi
    exact hk.trans ((withReg_of_lt hfirst).trans (withReg_of_ge hv))

/-! ## Every handler answers a next state -/

theorem exists_next_of_withReg {field : OperandField} {b : Byte} {s : State} {k : Fin Config.nReg → Result}
    (hk : ∀ j, ∃ t, k j = .next t) : ∃ t, withReg field b s k = .next t := by
  by_cases hb : b.toNat < 8
  · exact withReg_of_lt (k := k) hb ▸ hk _
  · exact ⟨_, withReg_of_ge (Nat.not_lt.1 hb)⟩

/-- No handler faults or is refused: a bad index is a next state too. -/
theorem exists_exec_eq_next (i : Instr) (s : State) : ∃ t, exec i s = .next t := by
  cases i with
  | hlt | ret => exact ⟨_, rfl⟩
  | push | pop | prn | call | jmp | not | ldi => exact exists_next_of_withReg fun _ => ⟨_, rfl⟩
  | jeq a =>
    cases he : s.equalFlag
    · exact ⟨_, exec_jeq_passed he⟩
    · exact exec_jeq_taken he ▸ exists_next_of_withReg fun _ => ⟨_, rfl⟩
  | jne a =>
    cases he : s.equalFlag
    · exact exec_jne_taken he ▸ exists_next_of_withReg fun _ => ⟨_, rfl⟩
    · exact ⟨_, exec_jne_passed he⟩
  | mod =>
    refine exists_next_of_withReg fun _ => exists_next_of_withReg fun _ => ?_
    beta_reduce
    split <;> exact ⟨_, rfl⟩
  | add | mul | cmp | and | or | xor | shl | shr =>
    exact exists_next_of_withReg fun _ => exists_next_of_withReg fun _ => ⟨_, rfl⟩

/-! ## How a handler leaves `status` -/

theorem aluOperation_length {i : Instr} {f : Byte → Byte → Byte} {a b : Byte}
    (h : aluOperation i = some (f, a, b)) : (encode i).length = 3 := by
  cases i <;> cases h <;> rfl

theorem usedIndices_head?_subset {i : Instr} {equal : Bool} {v : Byte}
    (h : (usedIndices i equal).head? = some v) : i.registerOperands.head? = some v := by
  cases i with
  | jeq =>
    cases equal
    · cases h
    · exact h
  | jne =>
    cases equal
    · exact h
    · cases h
  | _ => exact h

theorem registerOperands_of_usedIndices_pair {i : Instr} {equal : Bool} {a b : Byte}
    (h : usedIndices i equal = [a, b]) : i.registerOperands = [a, b] := by
  cases i with
  | jeq | jne => cases equal <;> cases h
  | _ => exact h

/-- The byte `v` is the operand that a `RegIndexFault` on `field` is to name: 8 or more, and the first such (R143,
R147). -/
def IsFirstBadIndex (i : Instr) (field : OperandField) (v : Byte) : Prop :=
  8 ≤ v.toNat ∧ (field = .a → i.registerOperands.head? = some v) ∧
  (field = .b → ∃ first, i.registerOperands = [first, v] ∧ first.toNat < 8)

theorem mem_registerOperands_of_isFirstBadIndex {i : Instr} {field : OperandField} {v : Byte}
    (h : IsFirstBadIndex i field v) : v ∈ i.registerOperands := by
  obtain ⟨-, ha, hb⟩ := h
  cases field with
  | a => exact List.mem_of_head? (ha rfl)
  | b =>
    obtain ⟨first, hfirst, -⟩ := hb rfl
    simp [hfirst]

/-- A handler keeps `status`, or is HLT, or MOD by zero, or halts precisely on its first bad index. -/
theorem exec_status_cases {i : Instr} {s t : State} (h : exec i s = .next t) :
    (t.status = s.status ∧ t.running = s.running) ∨ (i = .hlt ∧ t.status = .halted .hlt ∧ t.running = false) ∨
    (∃ a b, ∃ hb : b.toNat < 8, i = .mod a b ∧ s.reg ⟨b.toNat, hb⟩ = 0 ∧ t.status = .halted .divZero ∧
      t.running = false) ∨
    (∃ field v, IsFirstBadIndex i field v ∧ t = s.halt (.regIndexFault field v)) := by
  cases executes_of_exec h with
  | hlt => exact .inr (.inl ⟨rfl, rfl, rfl⟩)
  | modZero ha hb h0 => exact .inr (.inr (.inl ⟨_, _, hb, rfl, h0, rfl, rfl⟩))
  | badA hi hv =>
    exact .inr (.inr (.inr ⟨.a, _, ⟨hv, fun _ => usedIndices_head?_subset hi, nofun⟩, rfl⟩))
  | badB hi hfirst hv =>
    exact .inr (.inr (.inr ⟨.b, _, ⟨hv, nofun, fun _ => ⟨_, registerOperands_of_usedIndices_pair hi, hfirst⟩⟩, rfl⟩))
  | ret | push | pop | prn | call | jmp | jeqTaken | jeqPassed | jneTaken | jnePassed | not | ldi | alu | mod | cmp =>
    exact .inl ⟨rfl, rfl⟩

end Sys2Proof.ExecRules
end

section
/-! PROOFS. What one step does (42_control.md R120, 60_exceptions.md): when there is one, how it halts, where pc goes
and what it writes. -/

namespace Sys2Proof.StepLaws

open Sys2Proof.Machine Sys2Proof.Encoding Sys2Proof.Alu Sys2Proof.Control Sys2Proof.ExecRules

/-! ## When there is a step -/

theorem step_of_halted {s : State} {r : HaltReason} (h : s.status = .halted r) : step s = .fault (.coreHalted r) := by
  simp only [step, h]

theorem exists_step_of_running {s : State} (hrun : s.status = .running) : ∃ t, step s = .next t := by
  by_cases hpc : s.pc ≤ 253
  · rcases decode_cases s.window with ⟨i, hi, -⟩ | he
    · exact step_of_decode hrun hpc hi ▸ exists_exec_eq_next i s
    · exact ⟨_, step_of_unknownOpcode hrun hpc he⟩
  · exact ⟨_, step_of_le_pc hrun (by omega)⟩

/-- The byte of a window that does not decode is no opcode. -/
theorem opcode_ne_of_decode_eq_error {w : Window} {e : DecodeError} (h : decode w = .error e) (i : Instr) :
    opcode i ≠ w.ir := by
  intro hi
  obtain ⟨j, hj, -⟩ := exists_decode_of_opcode hi
  rw [hj] at h
  cases h

/-! ## How a step halts -/

/-- Everything a step from a running core can leave in `status`: Running, or one of the five reasons with its cause. -/
theorem step_status_cases {s t : State} (h : step s = .next t) :
    (t.status = .running) ∨
    (t.status = .halted .hlt ∧ decode s.window = .ok .hlt) ∨
    (∃ a b, ∃ hb : b.toNat < 8, t.status = .halted .divZero ∧ decode s.window = .ok (.mod a b) ∧
      s.reg ⟨b.toNat, hb⟩ = 0) ∨
    (s.pc ≤ 253 ∧ t = s.halt (.unknownOpcode (s.mem.read s.pc)) ∧ ∀ i, opcode i ≠ s.mem.read s.pc) ∨
    (254 ≤ s.pc ∧ t = s.halt (.fetchBoundsFault (max s.pc 256))) ∨
    (∃ i field v, decode s.window = .ok i ∧ IsFirstBadIndex i field v ∧ t = s.halt (.regIndexFault field v)) := by
  obtain ⟨hrun, ⟨hpc, rfl⟩ | ⟨hpc, hd, rfl⟩ | ⟨-, i, hd, h⟩⟩ := step_cases h
  · exact .inr (.inr (.inr (.inr (.inl ⟨hpc, rfl⟩))))
  · exact .inr (.inr (.inr (.inl ⟨hpc, rfl, opcode_ne_of_decode_eq_error hd⟩)))
  · rcases exec_status_cases h with ⟨hst, -⟩ | ⟨rfl, hst, -⟩ | ⟨a, b, hb, rfl, h0, hst, -⟩ | ⟨field, v, hv, rfl⟩
    · exact .inl (hst.trans hrun)
    · exact .inr (.inl ⟨hst, hd⟩)
    · exact .inr (.inr (.inl ⟨a, b, hb, hst, hd, h0⟩))
    · exact .inr (.inr (.inr (.inr (.inr ⟨i, field, v, hd, hv, rfl⟩))))

/-! ## What a handler writes -/

/-- The decremented stack pointer as a number (the spec's decision D3). -/
theorem decSp_sp_toNat (s : State) : s.decSp.sp.toNat = (s.sp.toNat + 255) % 256 := by
  rw [State.decSp_sp, BitVec.toNat_sub]
  exact congrArg (· % 256) (Nat.add_comm 255 _)

/-- A handler keeps memory as a whole, or is PUSH or CALL and stores one byte at the decremented stack pointer
(20_memory.md R41). -/
theorem exec_mem_cases {i : Instr} {s t : State} (h : exec i s = .next t) :
    t.mem = s.mem ∨ (∃ a, i = .push a ∨ i = .call a) ∧ ∃ v, t.mem = s.mem.write s.decSp.sp.toNat v := by
  cases executes_of_exec h with
  | push => exact .inr ⟨⟨_, .inl rfl⟩, _, rfl⟩
  | call => exact .inr ⟨⟨_, .inr rfl⟩, _, rfl⟩
  | hlt | ret | pop | prn | jmp | jeqTaken | jeqPassed | jneTaken | jnePassed | not | ldi | alu | mod | modZero | cmp
  | badA | badB => exact .inl rfl

/-- A handler keeps the output, or is PRN and appends one byte to it (10_state.md R33). -/
theorem exec_out_cases {i : Instr} {s t : State} (h : exec i s = .next t) :
    t.out = s.out ∨ (∃ a, i = .prn a) ∧ ∃ v, t.out = s.out ++ [v] := by
  cases executes_of_exec h with
  | prn => exact .inr ⟨⟨_, rfl⟩, _, rfl⟩
  | hlt | ret | push | pop | call | jmp | jeqTaken | jeqPassed | jneTaken | jnePassed | not | ldi | alu | mod | modZero
  | cmp | badA | badB => exact .inl rfl

/-! ## The obligations -/

/-- Settles O31: with the window inside memory the step is the decoded handler. -/
theorem stepRunsTheDecodedInstruction : Obligations.StepRunsTheDecodedInstruction :=
  fun _ _ hrun hpc hd => step_of_decode hrun hpc hd

/-- Settles O32: the fetch halts the core and nothing else. -/
theorem fetchOutsideMemoryHaltsBeforeDecoding : Obligations.FetchOutsideMemoryHaltsBeforeDecoding :=
  fun _ hrun hpc => step_of_le_pc hrun hpc

/-- Settles O36: a run of one or more steps begins with the step that a halted state does not have. -/
theorem haltedStateHasNoStep : Obligations.HaltedStateHasNoStep := by
  unfold Obligations.HaltedStateHasNoStep
  refine fun s r hr => ⟨step_of_halted hr, fun n hn => ?_⟩
  obtain ⟨m, rfl⟩ := Nat.exists_eq_succ_of_ne_zero hn.ne'
  exact run_succ_of_fault m (step_of_halted hr)

/-- Settles O37: the fetch, the decoder and every handler answer a next state from a running core, and only from one. -/
theorem runningCoreAlwaysSteps : Obligations.RunningCoreAlwaysSteps :=
  fun _ => ⟨fun ⟨_, ht⟩ => (step_cases ht).1, exists_step_of_running⟩

/-- Settles O34: of the six ways a step leaves `status`, only an unknown opcode records one. -/
theorem unknownOpcodeChangesNothingElse : Obligations.UnknownOpcodeChangesNothingElse := by
  unfold Obligations.UnknownOpcodeChangesNothingElse
  intro s t ir _ h hst
  rcases step_status_cases h with hr | ⟨hr, -⟩ | ⟨_, _, _, hr, -⟩ | ⟨-, rfl, hno⟩ | ⟨-, rfl⟩ | ⟨_, _, _, -, -, rfl⟩
  · cases hr.symm.trans hst
  · cases hr.symm.trans hst
  · cases hr.symm.trans hst
  · cases hst
    exact ⟨rfl, rfl, hno, nofun⟩
  · cases hst
  · cases hst

/-- Settles O35: a handler records a `RegIndexFault` only where it halts on its first bad index. -/
theorem regIndexFaultIsPreciseAndNamesTheFirstBadField :
    Obligations.RegIndexFaultIsPreciseAndNamesTheFirstBadField := by
  unfold Obligations.RegIndexFaultIsPreciseAndNamesTheFirstBadField
  intro i s t field value hrun h hst
  rcases exec_status_cases h with ⟨hr, -⟩ | ⟨-, hr, -⟩ | ⟨_, _, _, -, -, hr, -⟩ | ⟨f, v, hv, rfl⟩
  · cases (hr.trans hrun).symm.trans hst
  · cases hr.symm.trans hst
  · cases hr.symm.trans hst
  · cases hst
    exact ⟨rfl, hv⟩

/-- Settles O38: a well-formed instruction has no bad index, and the other ways to halt are HLT and MOD by zero. -/
theorem wellFormedInstructionsNeverFault : Obligations.WellFormedInstructionsNeverFault := by
  unfold Obligations.WellFormedInstructionsNeverFault
  intro i s hwf hrun
  obtain ⟨t, ht⟩ := exists_exec_eq_next i s
  refine ⟨t, ht, ?_⟩
  rcases exec_status_cases ht with ⟨hr, -⟩ | ⟨hi, hr, -⟩ | ⟨a, b, hb, hi, h0, hr, -⟩ | ⟨f, v, hv, rfl⟩
  · exact .inl (hr.trans hrun)
  · exact .inr (.inl ⟨hi, hr⟩)
  · exact .inr (.inr ⟨a, b, hb, hi, h0, hr⟩)
  · have hbad : i.wellFormed = false :=
      wellFormed_eq_false_iff.2 ⟨v, mem_registerOperands_of_isFirstBadIndex hv, hv.1⟩
    cases hwf.symm.trans hbad

/-- Settles O39: each way a step leaves `status` halted carries its cause. -/
theorem everyHaltHasItsCause : Obligations.EveryHaltHasItsCause := by
  unfold Obligations.EveryHaltHasItsCause
  intro s t r h hst
  rcases step_status_cases h with hr | ⟨hr, hd⟩ | ⟨a, b, hb, hr, hd, h0⟩ | ⟨hpc, rfl, hno⟩ | ⟨hpc, rfl⟩ |
    ⟨i, field, v, hd, hv, rfl⟩
  · cases hr.symm.trans hst
  · cases hr.symm.trans hst
    exact hd
  · cases hr.symm.trans hst
    exact ⟨a, b, hb, hd, h0⟩
  · cases hst
    exact ⟨hpc, rfl, hno⟩
  · cases hst
    exact ⟨hpc, rfl⟩
  · cases hst
    exact ⟨hv.1, i, hd, mem_registerOperands_of_isFirstBadIndex hv⟩

/-- Settles O40: each rule of a handler that leaves the core running moves pc in one of the three ways. -/
theorem pcMovesByLengthOrToItsTarget : Obligations.PcMovesByLengthOrToItsTarget := by
  unfold Obligations.PcMovesByLengthOrToItsTarget
  intro i s t _ h hst
  cases executes_of_exec h with
  | hlt | modZero | badA | badB => cases hst
  | ret => exact .inr (.inr ⟨rfl, rfl⟩)
  | jmp ha => exact .inr (.inl ⟨_, ha, .inl rfl, rfl⟩)
  | jeqTaken ha => exact .inr (.inl ⟨_, ha, .inr (.inl rfl), rfl⟩)
  | jneTaken ha => exact .inr (.inl ⟨_, ha, .inr (.inr (.inl rfl)), rfl⟩)
  | call ha => exact .inr (.inl ⟨_, ha, .inr (.inr (.inr rfl)), rfl⟩)
  | alu hi => exact .inl (congrArg (s.pc + ·) (aluOperation_length hi).symm)
  | push | pop | prn | jeqPassed | jnePassed | not | ldi | mod | cmp => exact .inl rfl

/-- Settles O51: a step that changes a byte runs a handler that stores, which is PUSH or CALL, at the decremented SP. -/
theorem onlyPushAndCallWriteMemory : Obligations.OnlyPushAndCallWriteMemory := by
  unfold Obligations.OnlyPushAndCallWriteMemory
  intro s t addr h hne
  obtain ⟨-, ⟨-, rfl⟩ | ⟨-, -, rfl⟩ | ⟨-, i, hd, h⟩⟩ := step_cases h
  · exact absurd rfl hne
  · exact absurd rfl hne
  · rcases exec_mem_cases h with hm | ⟨⟨a, hi⟩, v, hm⟩
    · exact absurd (by rw [hm]) hne
    · refine ⟨?_, a, hi.imp (fun e => hd.trans (congrArg _ e)) (fun e => hd.trans (congrArg _ e))⟩
      by_contra haddr
      rw [hm, Memory.read_write_of_ne _ _ (decSp_sp_toNat s ▸ haddr)] at hne
      exact hne rfl

end Sys2Proof.StepLaws
end

section
/-! PROOFS. What holds along every run: the legal-state invariant, the output that only grows, the halt that is final,
and the two parts of the state that nothing reads. -/

namespace Sys2Proof.RunLaws

open Sys2Proof.Machine Sys2Proof.Encoding Sys2Proof.Alu Sys2Proof.Control Sys2Proof.ExecRules Sys2Proof.StepLaws

/-! ## The legal-state invariant (10_state.md sections 3 to 5) -/

/-- A halt with legal information keeps a state legal. -/
theorem halt_inv {s : State} {r : HaltReason} (hs : s.Inv) (hr : r.legal) : (s.halt r).Inv where
  memWf := hs.memWf
  pcRange := hs.pcRange
  flOneHot := hs.flOneHot
  statusAgrees := ⟨nofun, nofun⟩
  reasonLegal _ h := by cases h; exact hr

theorem exec_mem_wf {i : Instr} {s t : State} (hs : s.mem.wf) (h : exec i s = .next t) : t.mem.wf := by
  rcases exec_mem_cases h with hm | ⟨-, v, hm⟩
  · exact hm ▸ hs
  · exact hm ▸ Memory.write_wf v hs s.decSp.sp.isLt

theorem compareFlags_cases (va vb : Byte) :
    compareFlags va vb = flE ∨ compareFlags va vb = flG ∨ compareFlags va vb = flL := by
  rcases Nat.lt_trichotomy va.toNat vb.toNat with h | h | h
  · exact .inr (.inr (compareFlags_of_lt h))
  · exact .inl (compareFlags_of_eq h)
  · exact .inr (.inl (compareFlags_of_gt h))

/-- A handler keeps `fl`, or writes one of E, G, L into it (R29). -/
theorem exec_fl_cases {i : Instr} {s t : State} (h : exec i s = .next t) :
    t.fl = s.fl ∨ t.fl = flE ∨ t.fl = flG ∨ t.fl = flL := by
  by_cases hi : ∀ a b, i ≠ .cmp a b
  · exact .inl (exec_fl_eq_of_ne_cmp h hi)
  · push Not at hi
    obtain ⟨a, b, rfl⟩ := hi
    cases executes_of_exec h with
    | cmp => exact .inr (compareFlags_cases _ _)
    | alu hi => cases hi
    | badA | badB => exact .inl rfl

/-- A byte, or at most three bytes past an executed instruction: pc stays in 0 to 256 (R25). -/
theorem exec_pc_le {i : Instr} {s t : State} (hpc : s.pc ≤ 253) (h : exec i s = .next t) : t.pc ≤ 256 := by
  have hbyte (b : Byte) : b.toNat ≤ 256 := b.isLt.le
  have hadd (n : Nat) (hn : n ≤ 3) : s.pc + n ≤ 256 := Nat.add_le_add hpc hn
  cases executes_of_exec h with
  | ret | call | jmp | jeqTaken | jneTaken => exact hbyte _
  | hlt | push | pop | prn | jeqPassed | jnePassed | not | ldi | alu | mod | modZero | cmp =>
    exact hadd _ (by decide)
  | badA | badB => exact hpc.trans (by decide)

theorem exec_status_agrees {i : Instr} {s t : State} (hs : s.running = true ↔ s.status = .running)
    (h : exec i s = .next t) : t.running = true ↔ t.status = .running := by
  rcases exec_status_cases h with ⟨hst, hr⟩ | ⟨-, hst, hr⟩ | ⟨_, _, _, -, -, hst, hr⟩ | ⟨_, _, -, rfl⟩
  · rw [hst, hr, hs]
  · simp [hst, hr]
  · simp [hst, hr]
  · simp

theorem exec_reason_legal {i : Instr} {s t : State} (hs : ∀ r, s.status = .halted r → r.legal)
    (h : exec i s = .next t) (r : HaltReason) (hr : t.status = .halted r) : r.legal := by
  rcases exec_status_cases h with ⟨hst, -⟩ | ⟨-, hst, -⟩ | ⟨_, _, _, -, -, hst, -⟩ | ⟨_, _, hbad, rfl⟩
  · exact hs r (hst ▸ hr)
  · cases hst.symm.trans hr
    trivial
  · cases hst.symm.trans hr
    trivial
  · cases hr
    exact hbad.1

theorem exec_inv {i : Instr} {s t : State} (hs : s.Inv) (hpc : s.pc ≤ 253) (h : exec i s = .next t) : t.Inv where
  memWf := exec_mem_wf hs.memWf h
  pcRange := exec_pc_le hpc h
  flOneHot := (exec_fl_cases h).elim (fun e => e ▸ hs.flOneHot) .inr
  statusAgrees := exec_status_agrees hs.statusAgrees h
  reasonLegal := exec_reason_legal hs.reasonLegal h

/-- Settles O50: the fetch and the decoder halt with legal information, and every handler keeps each part of the
invariant. -/
theorem everyStepKeepsTheStateLegal : Obligations.EveryStepKeepsTheStateLegal := by
  unfold Obligations.EveryStepKeepsTheStateLegal
  intro s t hs h
  obtain ⟨-, ⟨-, rfl⟩ | ⟨-, hd, rfl⟩ | ⟨hpc, i, -, h⟩⟩ := step_cases h
  · exact halt_inv hs (max_eq_right hs.pcRange)
  · exact halt_inv hs (opcode_ne_of_decode_eq_error hd)
  · exact exec_inv hs hpc h

/-! ## The output (10_state.md R33) -/

theorem step_out_cases {s t : State} (h : step s = .next t) : t.out = s.out ∨ ∃ v, t.out = s.out ++ [v] := by
  obtain ⟨-, ⟨-, rfl⟩ | ⟨-, -, rfl⟩ | ⟨-, i, -, h⟩⟩ := step_cases h
  · exact .inl rfl
  · exact .inl rfl
  · exact (exec_out_cases h).imp_right And.right

theorem step_out_prefix {s t : State} (h : step s = .next t) : s.out <+: t.out ∧ t.out.length ≤ s.out.length + 1 := by
  rcases step_out_cases h with ho | ⟨v, ho⟩
  · simp [ho]
  · simp [ho]

/-- Settles O52, by induction on the length of the run. -/
theorem outputIsOnlyAppendedTo : Obligations.OutputIsOnlyAppendedTo := by
  unfold Obligations.OutputIsOnlyAppendedTo
  intro n
  induction n with
  | zero =>
    intro s t h
    cases h
    exact ⟨List.prefix_rfl, le_rfl⟩
  | succ n ih =>
    intro s t h
    obtain ⟨u, hstep, hrun⟩ := run_succ_cases h
    obtain ⟨hpre, hlen⟩ := step_out_prefix hstep
    obtain ⟨hpre', hlen'⟩ := ih u t hrun
    exact ⟨hpre.trans hpre', by omega⟩

/-! ## The halt (60_exceptions.md section 6) -/

/-- A run of `m + k` steps goes on, from where its first `m` steps end, for `k` steps. -/
theorem run_add {s u : State} {m : Nat} (k : Nat) (h : core.run m s = .next u) :
    core.run (m + k) s = core.run k u := by
  induction m generalizing s with
  | zero =>
    cases h
    rw [Nat.zero_add]
  | succ m ih =>
    obtain ⟨w, hstep, hrun⟩ := run_succ_cases h
    calc core.run (m + 1 + k) s = core.run (m + k + 1) s := by rw [Nat.add_right_comm]
      _ = core.run (m + k) w := run_succ_of_next (m + k) hstep
      _ = core.run k u := ih hrun

/-- A state that a run goes on from is running. -/
theorem status_of_run_succ {s t : State} {k : Nat} (h : core.run (k + 1) s = .next t) : s.status = .running := by
  obtain ⟨u, hu, -⟩ := run_succ_cases h
  exact (step_cases hu).1

/-- Settles O53: a longer run would go on from the halted state, and a shorter one ends where the run goes on. -/
theorem haltIsFinal : Obligations.HaltIsFinal := by
  unfold Obligations.HaltIsFinal
  intro s t u n m r hn hr hm
  constructor
  · by_contra! hlt
    obtain ⟨k, rfl⟩ := Nat.exists_eq_add_of_lt hlt
    have hgo : core.run (k + 1) t = .next u := by rw [← run_add (k + 1) hn, ← Nat.add_assoc, hm]
    cases (status_of_run_succ hgo).symm.trans hr
  · intro hlt
    obtain ⟨k, rfl⟩ := Nat.exists_eq_add_of_lt hlt
    have hgo : core.run (k + 1) u = .next t := by rw [← run_add (k + 1) hm, ← Nat.add_assoc, hn]
    exact status_of_run_succ hgo

/-- A state that steps to itself is where every run from it ends. -/
theorem run_of_step_self {s : State} (h : step s = .next s) (n : Nat) : core.run n s = .next s := by
  induction n with
  | zero => rfl
  | succ n ih => rw [run_succ_of_next n h, ih]

/-- Settles O56: the state steps to itself, so it is the only one reached, and it is running. -/
theorem selfJumpRunsForever : Obligations.SelfJumpRunsForever := by
  unfold Obligations.SelfJumpRunsForever
  intro a s ha hrun hpc hd hself
  have hstay := run_of_step_self (step_of_jmp_self ha hrun hpc hd hself)
  refine ⟨hstay, fun t r ⟨n, hn⟩ hr => ?_⟩
  cases (hstay n).symm.trans hn
  cases hrun.symm.trans hr

/-! ## Parts of the state that nothing reads -/

/-- A relation between two states that a step cannot tell apart: they agree in all that the fetch reads, a halt keeps
the relation, and so does every handler. -/
structure Unread (R : State → State → Prop) : Prop where
  status : ∀ {s s'}, R s s' → s'.status = s.status
  pc : ∀ {s s'}, R s s' → s'.pc = s.pc
  window : ∀ {s s'}, R s s' → s'.window = s.window
  halt : ∀ {s s'} (r : HaltReason), R s s' → R (s.halt r) (s'.halt r)
  exec : ∀ {i s s' t}, R s s' → Executes i s t → ∃ t', Executes i s' t' ∧ R t t'

theorem Unread.step {R : State → State → Prop} (hR : Unread R) {s s' t : State} (hs : R s s') (h : step s = .next t) :
    ∃ t', Machine.step s' = .next t' ∧ R t t' := by
  have hpc' := hR.pc hs
  have hw := hR.window hs
  obtain ⟨hrun, ⟨hpc, rfl⟩ | ⟨hpc, hd, rfl⟩ | ⟨hpc, i, hd, h⟩⟩ := step_cases h
  all_goals have hrun' := (hR.status hs).trans hrun
  · exact ⟨_, step_of_le_pc hrun' (hpc' ▸ hpc), hpc' ▸ hR.halt _ hs⟩
  · exact ⟨_, step_of_unknownOpcode hrun' (hpc' ▸ hpc) (hw ▸ hd), hR.halt _ hs⟩
  · obtain ⟨t', ht', hR'⟩ := hR.exec hs (executes_of_exec h)
    exact ⟨t', (step_of_decode hrun' (hpc' ▸ hpc) (hw ▸ hd)).trans (exec_of_executes ht'), hR'⟩

/-- Two runs from states that a step cannot tell apart go on in step. -/
theorem Unread.run {R : State → State → Prop} (hR : Unread R) :
    ∀ (n : Nat) {s s' t : State}, R s s' → core.run n s = .next t → ∃ t', core.run n s' = .next t' ∧ R t t'
  | 0, _, s', _, hs, h => ⟨s', rfl, Host.Outcome.next.inj h ▸ hs⟩
  | n + 1, _, _, _, hs, h => by
    obtain ⟨u, hu, h⟩ := run_succ_cases h
    obtain ⟨u', hu', hs'⟩ := hR.step hs hu
    obtain ⟨t', ht', hR'⟩ := hR.run n hs' h
    exact ⟨t', (run_succ_of_next n hu').trans ht', hR'⟩

/-- The second state is the first with another `fl` of the same bit 0. -/
def SameButFl (s s' : State) : Prop := ∃ f : Byte, f.getLsbD 0 = s.fl.getLsbD 0 ∧ s' = s.setFl f

/-- JEQ and JNE read bit 0 alone, CMP writes `fl` whole, and the other handlers leave it as it is. -/
theorem executes_sameButFl {i : Instr} {s s' t : State} (hs : SameButFl s s') (h : Executes i s t) :
    ∃ t', Executes i s' t' ∧ SameButFl t t' := by
  obtain ⟨f, hf, rfl⟩ := hs
  have heq : (s.setFl f).equalFlag = s.equalFlag := hf
  cases h with
  | hlt => exact ⟨_, .hlt, f, hf, rfl⟩
  | ret => exact ⟨_, .ret, f, hf, rfl⟩
  | push ha => exact ⟨_, .push ha, f, hf, rfl⟩
  | pop ha => exact ⟨_, .pop ha, f, hf, rfl⟩
  | prn ha => exact ⟨_, .prn ha, f, hf, rfl⟩
  | call ha => exact ⟨_, .call ha, f, hf, rfl⟩
  | jmp ha => exact ⟨_, .jmp ha, f, hf, rfl⟩
  | jeqTaken ha he => exact ⟨_, .jeqTaken ha (heq.trans he), f, hf, rfl⟩
  | jeqPassed he => exact ⟨_, .jeqPassed (heq.trans he), f, hf, rfl⟩
  | jneTaken ha he => exact ⟨_, .jneTaken ha (heq.trans he), f, hf, rfl⟩
  | jnePassed he => exact ⟨_, .jnePassed (heq.trans he), f, hf, rfl⟩
  | not ha => exact ⟨_, .not ha, f, hf, rfl⟩
  | ldi ha => exact ⟨_, .ldi ha, f, hf, rfl⟩
  | alu hi ha hb => exact ⟨_, .alu hi ha hb, f, hf, rfl⟩
  | mod ha hb h0 => exact ⟨_, .mod ha hb h0, f, hf, rfl⟩
  | modZero ha hb h0 => exact ⟨_, .modZero ha hb h0, f, hf, rfl⟩
  | cmp ha hb => exact ⟨_, .cmp ha hb, _, rfl, rfl⟩
  | badA hi hv => exact ⟨_, .badA (heq ▸ hi) hv, f, hf, rfl⟩
  | badB hi hfirst hv => exact ⟨_, .badB (heq ▸ hi) hfirst hv, f, hf, rfl⟩

theorem unread_sameButFl : Unread SameButFl where
  status := by rintro s _ ⟨f, -, rfl⟩; rfl
  pc := by rintro s _ ⟨f, -, rfl⟩; rfl
  window := by rintro s _ ⟨f, -, rfl⟩; rfl
  halt := by rintro s _ r ⟨f, hf, rfl⟩; exact ⟨f, hf, rfl⟩
  exec := executes_sameButFl

/-- Settles O54: no step can tell two such states apart. -/
theorem greaterAndLessFlagsAreNeverRead : Obligations.GreaterAndLessFlagsAreNeverRead := by
  unfold Obligations.GreaterAndLessFlagsAreNeverRead
  intro n s t f hf h
  obtain ⟨_, ht', g, hg, rfl⟩ := unread_sameButFl.run n ⟨f, hf, rfl⟩ h
  exact ⟨g, hg, ht'⟩

/-- The two states have emitted the same bytes since their outputs were `earlier` and `earlier'`, and are otherwise
equal. -/
def SameSinceOutput (earlier earlier' : List Byte) (s s' : State) : Prop :=
  ∃ emitted, s.out = earlier ++ emitted ∧ s' = { s with out := earlier' ++ emitted }

/-- PRN appends the same byte to both outputs, and the other handlers leave them as they are. -/
theorem executes_sameSinceOutput {earlier earlier' : List Byte} {i : Instr} {s s' t : State}
    (hs : SameSinceOutput earlier earlier' s s') (h : Executes i s t) :
    ∃ t', Executes i s' t' ∧ SameSinceOutput earlier earlier' t t' := by
  obtain ⟨e, he, rfl⟩ := hs
  cases h with
  | prn ha =>
    refine ⟨_, .prn ha, e ++ [s.reg ⟨_, ha⟩], ?_, ?_⟩
    · rw [State.advance_out, State.emit_out, he, List.append_assoc]
    · rw [← List.append_assoc]
      rfl
  | hlt => exact ⟨_, .hlt, e, he, rfl⟩
  | ret => exact ⟨_, .ret, e, he, rfl⟩
  | push ha => exact ⟨_, .push ha, e, he, rfl⟩
  | pop ha => exact ⟨_, .pop ha, e, he, rfl⟩
  | call ha => exact ⟨_, .call ha, e, he, rfl⟩
  | jmp ha => exact ⟨_, .jmp ha, e, he, rfl⟩
  | jeqTaken ha heq => exact ⟨_, .jeqTaken ha heq, e, he, rfl⟩
  | jeqPassed heq => exact ⟨_, .jeqPassed heq, e, he, rfl⟩
  | jneTaken ha heq => exact ⟨_, .jneTaken ha heq, e, he, rfl⟩
  | jnePassed heq => exact ⟨_, .jnePassed heq, e, he, rfl⟩
  | not ha => exact ⟨_, .not ha, e, he, rfl⟩
  | ldi ha => exact ⟨_, .ldi ha, e, he, rfl⟩
  | alu hi ha hb => exact ⟨_, .alu hi ha hb, e, he, rfl⟩
  | mod ha hb h0 => exact ⟨_, .mod ha hb h0, e, he, rfl⟩
  | modZero ha hb h0 => exact ⟨_, .modZero ha hb h0, e, he, rfl⟩
  | cmp ha hb => exact ⟨_, .cmp ha hb, e, he, rfl⟩
  | badA hi hv => exact ⟨_, .badA hi hv, e, he, rfl⟩
  | badB hi hfirst hv => exact ⟨_, .badB hi hfirst hv, e, he, rfl⟩

theorem unread_sameSinceOutput (earlier earlier' : List Byte) : Unread (SameSinceOutput earlier earlier') where
  status := by rintro s _ ⟨e, -, rfl⟩; rfl
  pc := by rintro s _ ⟨e, -, rfl⟩; rfl
  window := by rintro s _ ⟨e, -, rfl⟩; rfl
  halt := by rintro s _ r ⟨e, he, rfl⟩; exact ⟨e, he, rfl⟩
  exec := executes_sameSinceOutput

/-- Settles O55: no step can tell two such states apart. -/
theorem outputIsNeverRead : Obligations.OutputIsNeverRead := by
  unfold Obligations.OutputIsNeverRead
  intro n s t earlier h
  have hstart : SameSinceOutput s.out earlier s { s with out := earlier } :=
    ⟨[], (List.append_nil _).symm, by rw [List.append_nil]⟩
  obtain ⟨_, ht', emitted, hout, rfl⟩ := (unread_sameSinceOutput s.out earlier).run n hstart h
  exact ⟨emitted, hout, ht'⟩

end Sys2Proof.RunLaws
end

section
/-! PROOFS. What each group of handlers leaves unchanged (10_state.md sections 2, 4 and 5, 20_memory.md section 1): the
frame of one handler part by part, then the four groups. -/

namespace Sys2Proof.Frames

open Sys2Proof.Machine Sys2Proof.Alu Sys2Proof.ExecRules Sys2Proof.StepLaws

/-! ## The frame of a handler, part by part -/

/-- The numbers of the registers a handler may write. -/
def destinations : Instr → List Nat
  | .ret | .push _ | .call _ => [7]
  | .pop a => [7, a.toNat]
  | i => (writesOnlyRegister i).toList.map BitVec.toNat

theorem destinations_of_writesOnlyRegister {i : Instr} {a : Byte} (h : writesOnlyRegister i = some a) :
    destinations i = [a.toNat] := by
  cases i <;> cases h <;> rfl

theorem writesOnlyRegister_of_aluOperation {i : Instr} {f : Byte → Byte → Byte} {a b : Byte}
    (h : aluOperation i = some (f, a, b)) : writesOnlyRegister i = some a := by
  cases i <;> cases h <;> rfl

theorem setReg_reg_of_notMem {i : Instr} {a : Byte} {k : Fin 8} (s : State) (v : Byte) (ha : a.toNat < 8)
    (hi : a.toNat ∈ destinations i) (hk : k.val ∉ destinations i) : (s.setReg ⟨a.toNat, ha⟩ v).reg k = s.reg k :=
  State.setReg_reg_of_ne s v (Fin.ne_of_val_ne fun e => hk (e ▸ hi))

theorem ne_spIndex_of_notMem {i : Instr} {k : Fin 8} (hi : 7 ∈ destinations i) (hk : k.val ∉ destinations i) :
    k ≠ Config.spIndex :=
  Fin.ne_of_val_ne fun e => hk (e ▸ hi)

/-- A handler keeps every register outside its destinations. -/
theorem exec_reg_eq_of_notMem {i : Instr} {s t : State} {k : Fin 8} (h : exec i s = .next t)
    (hk : k.val ∉ destinations i) : t.reg k = s.reg k := by
  cases executes_of_exec h with
  | ret => exact State.incSp_reg_of_ne _ (ne_spIndex_of_notMem (List.mem_singleton_self 7) hk)
  | push | call => exact State.decSp_reg_of_ne _ (ne_spIndex_of_notMem (List.mem_singleton_self 7) hk)
  | pop ha =>
    calc _ = (s.setReg _ _).reg k := State.incSp_reg_of_ne _ (ne_spIndex_of_notMem List.mem_cons_self hk)
      _ = s.reg k := setReg_reg_of_notMem s _ ha (List.mem_cons_of_mem _ (List.mem_singleton_self _)) hk
  | not ha | ldi ha | mod ha => exact setReg_reg_of_notMem s _ ha (List.mem_singleton_self _) hk
  | alu hi ha =>
    have hd := destinations_of_writesOnlyRegister (writesOnlyRegister_of_aluOperation hi)
    exact setReg_reg_of_notMem s _ ha (hd ▸ List.mem_singleton_self _) hk
  | hlt | prn | jmp | jeqTaken | jeqPassed | jneTaken | jnePassed | modZero | cmp | badA | badB => rfl

theorem exec_out_eq_of_ne_prn {i : Instr} {s t : State} (h : exec i s = .next t) (hi : ¬ ∃ a, i = .prn a) :
    t.out = s.out :=
  (exec_out_cases h).resolve_right fun ⟨hprn, _⟩ => hi hprn

theorem sameMemory_of_exec {i : Instr} {s t : State} (h : exec i s = .next t)
    (hi : ¬ ∃ a, i = .push a ∨ i = .call a) : SameMemory s t := by
  intro addr
  rw [(exec_mem_cases h).resolve_right fun ⟨hstore, _⟩ => hi hstore]

/-- Every handler's store, if it has one, is at the decremented stack pointer. -/
theorem exec_read_eq_of_ne {i : Instr} {s t : State} {addr : Nat} (h : exec i s = .next t)
    (haddr : addr ≠ s.decSp.sp.toNat) : t.mem.read addr = s.mem.read addr := by
  rcases exec_mem_cases h with hm | ⟨-, v, hm⟩
  · rw [hm]
  · rw [hm, Memory.read_write_of_ne _ _ haddr]

theorem sameStatusOrHalted_of_exec {i : Instr} {s t : State} (h : exec i s = .next t) : SameStatusOrHalted s t := by
  rcases exec_status_cases h with hst | ⟨-, hst, hr⟩ | ⟨_, _, _, -, -, hst, hr⟩ | ⟨_, _, -, rfl⟩
  · exact .inl hst
  · exact .inr ⟨hr, _, hst⟩
  · exact .inr ⟨hr, _, hst⟩
  · exact .inr ⟨rfl, _, rfl⟩

/-! ## The obligations -/

/-- Settles O22: the destination is one register, and these instructions are none of CMP, PRN, PUSH and CALL. -/
theorem registerInstructionsChangeOneRegister : Obligations.RegisterInstructionsChangeOneRegister := by
  unfold Obligations.RegisterInstructionsChangeOneRegister
  intro i a s t hi h
  have hd := destinations_of_writesOnlyRegister hi
  refine ⟨fun k hk => exec_reg_eq_of_notMem h (by rw [hd]; simpa using hk), exec_fl_eq_of_ne_cmp h ?_,
    exec_out_eq_of_ne_prn h ?_, sameMemory_of_exec h ?_, sameStatusOrHalted_of_exec h⟩
  · rintro b c rfl
    cases hi
  · rintro ⟨b, rfl⟩
    cases hi
  · rintro ⟨b, rfl | rfl⟩ <;> cases hi

/-- Settles O23: these instructions have no destination, and are neither PUSH nor CALL. -/
theorem compareOutputAndJumpsKeepRegistersAndMemory : Obligations.CompareOutputAndJumpsKeepRegistersAndMemory := by
  unfold Obligations.CompareOutputAndJumpsKeepRegistersAndMemory
  intro i s t h hi
  have hnone : destinations i = [] ∧ ¬ ∃ a, i = .push a ∨ i = .call a := by
    rcases hi with ⟨a, b, rfl⟩ | ⟨a, rfl⟩ | rfl | ⟨a, rfl⟩ | ⟨a, rfl⟩ | ⟨a, rfl⟩ <;> exact ⟨rfl, by simp⟩
  obtain ⟨hd, hstore⟩ := hnone
  exact ⟨fun k => exec_reg_eq_of_notMem h (hd ▸ List.not_mem_nil), sameMemory_of_exec h hstore,
    fun hcmp => exec_fl_eq_of_ne_cmp h fun a b e => hcmp ⟨a, b, e⟩, exec_out_eq_of_ne_prn h,
    sameStatusOrHalted_of_exec h⟩

/-- Settles O24: the one destination is register 7, and every store is at the decremented stack pointer. -/
theorem pushAndCallStoreOnlyAtTheNewStackPointer : Obligations.PushAndCallStoreOnlyAtTheNewStackPointer := by
  unfold Obligations.PushAndCallStoreOnlyAtTheNewStackPointer
  intro a i s t hi h
  refine ⟨fun addr => exec_read_eq_of_ne h, fun k hk => exec_reg_eq_of_notMem h ?_, exec_fl_eq_of_ne_cmp h ?_,
    exec_out_eq_of_ne_prn h ?_, sameStatusOrHalted_of_exec h⟩
  · rcases hi with rfl | rfl <;> simpa [destinations] using hk
  · rcases hi with rfl | rfl <;> nofun
  · rcases hi with rfl | rfl <;> nofun

/-- Settles O25: the destinations are register 7 and POP's operand; neither stores, and RET cannot halt. -/
theorem popAndRetStoreNothing : Obligations.PopAndRetStoreNothing := by
  unfold Obligations.PopAndRetStoreNothing
  refine ⟨fun a s t h => ?_, fun s t h => ?_⟩
  · exact ⟨fun k h7 hk => exec_reg_eq_of_notMem h (by simp [destinations, h7, hk]), sameMemory_of_exec h (by simp),
      exec_fl_eq_of_ne_cmp h nofun, exec_out_eq_of_ne_prn h nofun, sameStatusOrHalted_of_exec h⟩
  · obtain rfl := Host.Outcome.next.inj h
    exact ⟨fun k hk => exec_reg_eq_of_notMem h (by simpa [destinations] using hk), fun _ => rfl, rfl, rfl, rfl, rfl⟩

end Sys2Proof.Frames
end

section
/-! PROOFS. MOD, NOT, SHL, and the operations that clear a register (40_alu.md sections 2 and 3). -/

namespace Sys2Proof.Alu

open Sys2Proof.Machine Sys2Proof.ExecRules

/-! ## The results on natural numbers (R81) -/

theorem aluMod_toNat (va vb : Byte) : (aluMod va vb).toNat = va.toNat % vb.toNat :=
  narrow_toNat_of_lt ((Nat.mod_le _ _).trans_lt va.isLt)

theorem aluNot_toNat (va : Byte) : (aluNot va).toNat = 255 - va.toNat :=
  narrow_toNat_of_lt (by omega)

theorem aluShl_toNat (va vb : Byte) : (aluShl va vb).toNat = va.toNat * 2 ^ vb.toNat % 256 := by
  rw [aluShl, Nat.shiftLeft_eq, narrow_toNat]

/-- A shift by the width or more leaves nothing of the byte (decision D2). -/
theorem aluShl_eq_zero {va vb : Byte} (h : 8 ≤ vb.toNat) : aluShl va vb = 0 := by
  apply BitVec.eq_of_toNat_eq
  rw [aluShl_toNat]
  exact Nat.mod_eq_zero_of_dvd ((Nat.pow_dvd_pow 2 h).mul_left _)

theorem aluShr_eq_zero {va vb : Byte} (h : va.toNat < 2 ^ vb.toNat) : aluShr va vb = 0 := by
  apply BitVec.eq_of_toNat_eq
  rw [aluShr_toNat]
  exact Nat.div_eq_of_lt h

theorem aluXor_self (va : Byte) : aluXor va va = 0 := by
  apply BitVec.eq_of_toNat_eq
  rw [aluXor_toNat]
  exact Nat.xor_self _

/-! ## The obligations -/

/-- Settles O3: division with remainder by a nonzero divisor; by zero the handler halts. -/
theorem modWritesRemainderOrHaltsOnZero : Obligations.ModWritesRemainderOrHaltsOnZero := by
  unfold Obligations.ModWritesRemainderOrHaltsOnZero
  refine fun a b s => ⟨⟨rfl, rfl⟩, fun ha hb => ⟨fun h0 => ?_, fun h0 => exec_of_executes (.modZero ha hb h0)⟩,
    checksBothIndices_of_withRegs rfl⟩
  have hpos : 0 < (s.reg ⟨b.toNat, hb⟩).toNat := Nat.pos_of_ne_zero fun e => h0 (BitVec.eq_of_toNat_eq e)
  refine ⟨_, (s.reg ⟨a.toNat, ha⟩).toNat / (s.reg ⟨b.toNat, hb⟩).toNat, exec_of_executes (.mod ha hb h0), ?_, ?_,
    fun k hk => ?_, rfl, rfl⟩
  · rw [State.advance_reg, State.setReg_reg_self, aluMod_toNat, Nat.div_add_mod']
  · rw [State.advance_reg, State.setReg_reg_self, aluMod_toNat]
    exact Nat.mod_lt _ hpos
  · rw [State.advance_reg, State.setReg_reg_of_ne _ _ (Fin.ne_of_val_ne hk)]

/-- Settles O8: a byte and its one's complement add up to 255. -/
theorem notWritesOnesComplement : Obligations.NotWritesOnesComplement := by
  unfold Obligations.NotWritesOnesComplement
  refine ⟨fun _ _ => ⟨rfl, rfl⟩, fun _ _ => raisesRegIndexFaultOf_of_withReg rfl, fun a s ha => ?_⟩
  refine ⟨_, exec_of_executes (.not ha), ?_, fun k hk => ?_, rfl, rfl⟩
  · rw [State.advance_reg, State.setReg_reg_self, aluNot_toNat]
    omega
  · rw [State.advance_reg, State.setReg_reg_of_ne _ _ (Fin.ne_of_val_ne hk)]

/-- Settles O9: SHL has the shared shape, and a left shift multiplies by a power of two. -/
theorem shlMultipliesByPowerOfTwoModulo256 : Obligations.ShlMultipliesByPowerOfTwoModulo256 :=
  twoRegisterRule_of_aluTwo (fun _ _ => ⟨rfl, rfl⟩) (fun _ _ _ => rfl) aluShl_toNat

/-- What a two-register operation leaves in its destination. -/
theorem exists_exec_reg_of_aluOperation {i : Instr} {f : Byte → Byte → Byte} {a b v : Byte} {s : State}
    (hi : aluOperation i = some (f, a, b)) (ha : a.toNat < 8) (hb : b.toNat < 8)
    (hv : f (s.reg ⟨a.toNat, ha⟩) (s.reg ⟨b.toNat, hb⟩) = v) :
    ∃ t, exec i s = .next t ∧ t.reg ⟨a.toNat, ha⟩ = v :=
  ⟨_, exec_of_executes (.alu hi ha hb), by rw [State.advance_reg, State.setReg_reg_self, hv]⟩

/-- Settles O11: `2 ^ 8` divides the shifted value, a byte is below `2 ^ 8` and below two to its own power, and a value
differs from itself in no bit. -/
theorem wideShiftsAndSelfXorClearTheRegister : Obligations.WideShiftsAndSelfXorClearTheRegister := by
  unfold Obligations.WideShiftsAndSelfXorClearTheRegister
  refine fun a b s ha hb => ⟨fun h8 => ⟨?_, ?_⟩, ?_, ?_⟩
  · exact exists_exec_reg_of_aluOperation rfl ha hb (aluShl_eq_zero h8)
  · refine exists_exec_reg_of_aluOperation rfl ha hb (aluShr_eq_zero ?_)
    exact (s.reg ⟨a.toNat, ha⟩).isLt.trans_le (Nat.pow_le_pow_right Nat.two_pos h8)
  · exact exists_exec_reg_of_aluOperation rfl ha ha (aluShr_eq_zero Nat.lt_two_pow_self)
  · exact exists_exec_reg_of_aluOperation rfl ha ha (aluXor_self _)

end Sys2Proof.Alu
end

section
/-! PROOFS. The stack and the output, one instruction at a time (41_data_stack_io.md sections 2 and 3), then PUSH before
POP, and whole runs of them. -/

namespace Sys2Proof.Stack

open Sys2Proof.Machine Sys2Proof.Alu Sys2Proof.Control Sys2Proof.ExecRules Sys2Proof.StepLaws Sys2Proof.Frames

/-! ## The moved stack pointer -/

theorem decSp_reg (s : State) (k : Fin Config.nReg) :
    s.decSp.reg k = if k = Config.spIndex then s.sp - 1 else s.reg k :=
  State.setReg_reg s _ k _

theorem incSp_reg (s : State) (k : Fin Config.nReg) :
    s.incSp.reg k = if k = Config.spIndex then s.sp + 1 else s.reg k :=
  State.setReg_reg s _ k _

/-- What PUSH stores and CALL jumps to: register 7 is read after the decrement (decision D12). -/
theorem decSp_reg_toNat (s : State) (k : Fin Config.nReg) :
    (s.decSp.reg k).toNat = if k.val = 7 then (s.sp.toNat + 255) % 256 else (s.reg k).toNat := by
  split
  · next h =>
    obtain rfl : k = Config.spIndex := Fin.ext h
    exact decSp_sp_toNat s
  · next h => rw [State.decSp_reg_of_ne s (Fin.ne_of_val_ne h)]

theorem incSp_sp_toNat (s : State) : s.incSp.sp.toNat = (s.sp.toNat + 1) % 256 := by
  rw [State.incSp_sp, BitVec.toNat_add]
  rfl

/-- The byte just pushed is the byte at SP. -/
theorem storeAtSp_read_sp {s : State} (hwf : s.mem.wf) (v : Byte) : (s.storeAtSp v).mem.read s.sp.toNat = v :=
  Memory.read_write_self hwf _ v

/-! ## One instruction -/

/-- Settles O13: the store is at the decremented stack pointer, of the register read after the decrement. -/
theorem pushStoresBelowTheStackPointer : Obligations.PushStoresBelowTheStackPointer := by
  unfold Obligations.PushStoresBelowTheStackPointer
  refine ⟨fun _ _ => ⟨rfl, rfl⟩, fun _ _ => raisesRegIndexFaultOf_of_withReg rfl, fun a s ha hwf => ?_⟩
  have hexec := exec_of_executes (.push (s := s) ha)
  refine ⟨_, hexec, decSp_sp_toNat s, fun k hk => State.decSp_reg_of_ne s (Fin.ne_of_val_ne hk), ?_,
    fun addr haddr => exec_read_eq_of_ne hexec (decSp_sp_toNat s ▸ haddr), rfl, rfl⟩
  calc _ = (s.decSp.reg ⟨a.toNat, ha⟩).toNat := congrArg BitVec.toNat (storeAtSp_read_sp (s := s.decSp) hwf _)
    _ = _ := decSp_reg_toNat s ⟨a.toNat, ha⟩

/-- Settles O14: SP is incremented after the register is written, so a popped register 7 is the byte plus 1. -/
theorem popLoadsFromTheStackPointer : Obligations.PopLoadsFromTheStackPointer := by
  unfold Obligations.PopLoadsFromTheStackPointer
  refine ⟨fun _ _ => ⟨rfl, rfl⟩, fun _ _ => raisesRegIndexFaultOf_of_withReg rfl, fun a s ha => ?_⟩
  refine ⟨_, exec_of_executes (.pop ha), fun h7 => ⟨?_, ?_⟩, fun h7 => ?_, fun k hk7 hka => ?_, rfl, rfl⟩
  · rw [State.advance_reg, State.incSp_reg_of_ne _ (Fin.ne_of_val_ne h7), State.setReg_reg_self, State.loadAtSp]
  · have hne : Config.spIndex ≠ ⟨a.toNat, ha⟩ := Fin.ne_of_val_ne (Ne.symm h7)
    rw [State.advance_sp, incSp_sp_toNat, State.sp, State.setReg_reg_of_ne _ _ hne, State.sp]
  · obtain rfl : a = 7 := BitVec.eq_of_toNat_eq h7
    rw [State.advance_sp, incSp_sp_toNat]
    exact congrArg (fun b : Byte => (b.toNat + 1) % 256) (State.setReg_reg_self s Config.spIndex s.loadAtSp)
  · rw [State.advance_reg, State.incSp_reg_of_ne _ (Fin.ne_of_val_ne hk7),
      State.setReg_reg_of_ne _ _ (Fin.ne_of_val_ne hka)]

/-- Settles O15: the handler is one append. -/
theorem prnAppendsTheRegister : Obligations.PrnAppendsTheRegister :=
  ⟨fun _ _ => ⟨rfl, rfl⟩, fun _ _ => raisesRegIndexFaultOf_of_withReg rfl, fun _ _ ha => exec_of_executes (.prn ha)⟩

/-! ## PUSH, then POP -/

theorem execAll_cons {i : Instr} {is : List Instr} {s u : State} (h : exec i s = .next u) :
    execAll (i :: is) s = execAll is u := by
  rw [execAll, h]

theorem execAll_append {is js : List Instr} {s u : State} (h : execAll is s = .next u) :
    execAll (is ++ js) s = execAll js u := by
  induction is generalizing s with
  | nil =>
    cases h
    rfl
  | cons i is ih =>
    cases hi : exec i s with
    | next w =>
      rw [execAll_cons hi] at h
      rw [List.cons_append, execAll_cons hi, ih h]
    | fault f => simp [execAll, hi] at h
    | refused r => simp [execAll, hi] at h

/-- The state after PUSH Ra, for a usable `a`. -/
def afterPush (s : State) (a : Fin Config.nReg) : State := (s.decSp.storeAtSp (s.decSp.reg a)).advance 2

/-- The state after POP Rb, for a usable `b`. -/
def afterPop (s : State) (b : Fin Config.nReg) : State := (s.setReg b s.loadAtSp).incSp.advance 2

theorem exec_push (s : State) {a : Byte} (ha : a.toNat < 8) :
    exec (.push a) s = .next (afterPush s ⟨a.toNat, ha⟩) :=
  exec_of_executes (.push ha)

theorem exec_pop (s : State) {b : Byte} (hb : b.toNat < 8) : exec (.pop b) s = .next (afterPop s ⟨b.toNat, hb⟩) :=
  exec_of_executes (.pop hb)

theorem afterPush_sp (s : State) (a : Fin Config.nReg) : (afterPush s a).sp = s.sp - 1 := State.decSp_sp s

theorem afterPush_sp_toNat (s : State) (a : Fin Config.nReg) : (afterPush s a).sp.toNat = (s.sp.toNat + 255) % 256 :=
  decSp_sp_toNat s

theorem afterPush_reg_of_ne (s : State) (a : Fin Config.nReg) {k : Fin Config.nReg} (hk : k ≠ Config.spIndex) :
    (afterPush s a).reg k = s.reg k :=
  State.decSp_reg_of_ne s hk

theorem afterPush_mem_wf {s : State} (hwf : s.mem.wf) (a : Fin Config.nReg) : (afterPush s a).mem.wf :=
  Memory.write_wf _ hwf s.decSp.sp.isLt

theorem afterPush_read_of_ne (s : State) (a : Fin Config.nReg) {addr : Nat} (h : addr ≠ (afterPush s a).sp.toNat) :
    (afterPush s a).mem.read addr = s.mem.read addr :=
  Memory.read_write_of_ne _ _ h

/-- The byte pushed, as the next POP reads it. -/
theorem afterPush_loadAtSp {s : State} (hwf : s.mem.wf) (a : Fin Config.nReg) :
    (afterPush s a).loadAtSp = if a = Config.spIndex then s.sp - 1 else s.reg a :=
  (storeAtSp_read_sp (s := s.decSp) hwf _).trans (decSp_reg s a)

theorem afterPush_loadAtSp_of_ne {s : State} {a : Byte} (hwf : s.mem.wf) (ha : a.toNat < 8) (h7 : a.toNat ≠ 7) :
    (afterPush s ⟨a.toNat, ha⟩).loadAtSp = s.reg ⟨a.toNat, ha⟩ :=
  (afterPush_loadAtSp hwf _).trans (if_neg (Fin.ne_of_val_ne h7))

/-- Settles O41: the pushed byte is at SP, and the state after the push is running with its window inside memory. -/
theorem nextFetchSeesThePushedByte : Obligations.NextFetchSeesThePushedByte := by
  unfold Obligations.NextFetchSeesThePushedByte
  intro a s t ha hwf hrun hpc h
  have ha8 : a.toNat < 8 := ha.trans (by decide)
  obtain rfl := Host.Outcome.next.inj ((exec_push s ha8).symm.trans h)
  have hbyte := afterPush_loadAtSp_of_ne hwf ha8 ha.ne
  refine ⟨fun e => ?_, fun e => ?_, fun e => ?_, fun i hi => step_of_decode hrun (Nat.add_le_add_right hpc 2) hi⟩
  all_goals exact (congrArg (Memory.read _) e).trans hbyte

theorem afterPop_reg (s : State) (b k : Fin Config.nReg) (hb : b ≠ Config.spIndex) : (afterPop s b).reg k =
    if k = Config.spIndex then s.sp + 1 else if k = b then s.loadAtSp else s.reg k := by
  have hsp : (s.setReg b s.loadAtSp).sp = s.sp := State.setReg_reg_of_ne s _ hb.symm
  calc (afterPop s b).reg k = (s.setReg b s.loadAtSp).incSp.reg k := rfl
    _ = _ := by rw [incSp_reg, hsp, State.setReg_reg]

theorem afterPop_spIndex_reg (s : State) (k : Fin Config.nReg) : (afterPop s Config.spIndex).reg k =
    if k = Config.spIndex then s.loadAtSp + 1 else s.reg k := by
  have hsp : (s.setReg Config.spIndex s.loadAtSp).sp = s.loadAtSp := State.setReg_reg_self s _ _
  calc (afterPop s Config.spIndex).reg k = (s.setReg Config.spIndex s.loadAtSp).incSp.reg k := rfl
    _ = _ := by rw [incSp_reg, hsp, State.setReg_reg]; split <;> rfl

theorem execAll_push_pop (s : State) {a b : Byte} (ha : a.toNat < 8) (hb : b.toNat < 8) :
    execAll [.push a, .pop b] s = .next (afterPop (afterPush s ⟨a.toNat, ha⟩) ⟨b.toNat, hb⟩) := by
  rw [execAll_cons (exec_push s ha), execAll_cons (exec_pop _ hb), execAll]

/-- The decrement and the increment of SP cancel, across the wrap too. -/
theorem sp_sub_one_add_one (b : Byte) : b - 1 + 1 = b := BitVec.sub_add_cancel b 1

theorem afterPop_afterPush_reg {s : State} (hwf : s.mem.wf) (a k : Fin Config.nReg) :
    (afterPop (afterPush s a) a).reg k = s.reg k := by
  have hsp (h : k = Config.spIndex) : s.sp - 1 + 1 = s.reg k := h ▸ sp_sub_one_add_one s.sp
  by_cases ha : a = Config.spIndex
  · subst ha
    rw [afterPop_spIndex_reg, afterPush_loadAtSp hwf, if_pos rfl]
    split
    · next hk => exact hsp hk
    · next hk => exact afterPush_reg_of_ne s _ hk
  · rw [afterPop_reg _ _ _ ha, afterPush_loadAtSp hwf, if_neg ha, afterPush_sp]
    split
    · next hk => exact hsp hk
    · next hk =>
      split
      · next hka => rw [hka]
      · exact afterPush_reg_of_ne s a hk

/-- Settles O26: the popped byte is the pushed one, and SP comes back. -/
theorem pushThenPopRestoresEveryRegister : Obligations.PushThenPopRestoresEveryRegister := by
  unfold Obligations.PushThenPopRestoresEveryRegister
  intro a s ha hwf
  exact ⟨_, execAll_push_pop s ha ha, afterPop_afterPush_reg hwf _, rfl, rfl, rfl, fun _ => afterPush_read_of_ne s _⟩

/-- Settles O27: the popped byte is the pushed one, and SP comes back. -/
theorem pushThenPopCopiesARegister : Obligations.PushThenPopCopiesARegister := by
  unfold Obligations.PushThenPopCopiesARegister
  intro a b s ha hb hwf
  have hb7 : (⟨b.toNat, hb.trans (by decide)⟩ : Fin Config.nReg) ≠ Config.spIndex := Fin.ne_of_val_ne hb.ne
  refine ⟨_, execAll_push_pop s ha (hb.trans (by decide)), ?_, fun k hk => ?_⟩
  · rw [afterPop_reg _ _ _ hb7, if_neg hb7, if_pos rfl, afterPush_loadAtSp hwf]
    simp only [Fin.ext_iff]
    rfl
  · rw [afterPop_reg _ _ _ hb7, if_neg (Fin.ne_of_val_ne hk : k ≠ ⟨b.toNat, _⟩), afterPush_sp]
    split
    · next h7 => exact h7 ▸ sp_sub_one_add_one s.sp
    · next h7 => exact afterPush_reg_of_ne s _ h7

/-! ## Runs of pushes and pops -/

/-- `addr` is none of the `n` places below `sp`, going down modulo 256, that `n` pushes write. -/
def OutsidePushes (sp : Byte) (n addr : Nat) : Prop := ∀ k < n, (addr + 1 + k) % 256 ≠ sp.toNat

theorem outsidePushes_succ {s : State} {a : Fin Config.nReg} {n addr : Nat} (h : OutsidePushes s.sp (n + 1) addr) :
    addr ≠ (afterPush s a).sp.toNat ∧ OutsidePushes (afterPush s a).sp n addr := by
  have hsp := afterPush_sp_toNat s a
  have hlt := s.sp.isLt
  constructor
  · have := h 0 n.succ_pos
    omega
  · intro k hk
    have := h (k + 1) (Nat.succ_lt_succ hk)
    omega

/-- Fewer than 256 pushes leave the cell at SP alone. -/
theorem outsidePushes_sp {sp : Byte} {n : Nat} (hn : n < 256) : OutsidePushes sp n sp.toNat := by
  intro k hk
  have := sp.isLt
  omega

/-- `t` reads as `s` but for pc, which `n` pushes and `n` pops have moved, and the cells that the pushes write. -/
structure Restored (n : Nat) (s t : State) : Prop where
  reg : ∀ k, t.reg k = s.reg k
  fl : t.fl = s.fl
  out : t.out = s.out
  status : t.status = s.status
  pc : t.pc = s.pc + 4 * n
  read : ∀ addr, OutsidePushes s.sp n addr → t.mem.read addr = s.mem.read addr

theorem restored_zero (s : State) : Restored 0 s s := ⟨fun _ => rfl, rfl, rfl, rfl, rfl, fun _ _ => rfl⟩

/-- A register pushed before, and popped after, fewer than 256 pushes and their pops: its cell has kept its byte. -/
theorem restored_succ {s t : State} {a : Fin Config.nReg} {n : Nat} (hwf : s.mem.wf) (ha : a ≠ Config.spIndex)
    (hn : n < 256) (h : Restored n (afterPush s a) t) : Restored (n + 1) s (afterPop t a) where
  reg k := by
    have hsp : t.sp = (afterPush s a).sp := h.reg Config.spIndex
    have hload : t.loadAtSp = (afterPush s a).loadAtSp := by
      rw [State.loadAtSp, hsp]
      exact h.read _ (outsidePushes_sp hn)
    rw [← afterPop_afterPush_reg hwf a k, afterPop_reg _ _ _ ha, afterPop_reg _ _ _ ha, hload, hsp, h.reg]
  fl := h.fl
  out := h.out
  status := h.status
  pc := by
    have hpc : t.pc = s.pc + 2 + 4 * n := h.pc
    change t.pc + 2 = s.pc + 4 * (n + 1)
    omega
  read addr haddr := by
    obtain ⟨hne, hout⟩ := outsidePushes_succ (a := a) haddr
    exact (h.read addr hout).trans (afterPush_read_of_ne s a hne)

theorem execAll_push_run_pop {is : List Instr} {r : Byte} {s t : State} (hr : r.toNat < 8)
    (h : execAll is (afterPush s ⟨r.toNat, hr⟩) = .next t) :
    execAll (.push r :: (is ++ [.pop r])) s = .next (afterPop t ⟨r.toNat, hr⟩) := by
  rw [execAll_cons (exec_push s hr), execAll_append h, execAll_cons (exec_pop t hr), execAll]

theorem exists_restored (rs : List Byte) : ∀ s : State, (∀ r ∈ rs, r.toNat < 7) → rs.length ≤ 256 → s.mem.wf →
    ∃ t, execAll (rs.map .push ++ rs.reverse.map .pop) s = .next t ∧ Restored rs.length s t := by
  induction rs with
  | nil => exact fun s _ _ _ => ⟨s, rfl, restored_zero s⟩
  | cons r rs ih =>
    intro s hrs hlen hwf
    have hr7 : r.toNat < 7 := hrs r List.mem_cons_self
    have hr8 : r.toNat < 8 := hr7.trans (by decide)
    obtain ⟨t, ht, hrest⟩ := ih (afterPush s ⟨r.toNat, hr8⟩) (fun q hq => hrs q (List.mem_cons_of_mem r hq))
      (Nat.le_of_succ_le hlen) (afterPush_mem_wf hwf _)
    refine ⟨_, ?_, restored_succ hwf (Fin.ne_of_val_ne hr7.ne) hlen hrest⟩
    simpa using execAll_push_run_pop hr8 ht

/-- Settles O28, by induction on the list: the outer push and pop enclose the run of the inner ones. -/
theorem stackIsLastInFirstOut : Obligations.StackIsLastInFirstOut := by
  unfold Obligations.StackIsLastInFirstOut
  intro rs s hrs hlen hwf
  obtain ⟨t, ht, h⟩ := exists_restored rs s hrs hlen hwf
  exact ⟨t, ht, h.reg, h.fl, h.out, h.status, h.pc⟩

/-- What a run of pushes of `rs` does to SP, the other registers and memory. -/
structure Pushed (rs : List Byte) (s t : State) : Prop where
  sp : (t.sp.toNat + rs.length) % 256 = s.sp.toNat
  reg : ∀ k : Fin 8, k.val ≠ 7 → t.reg k = s.reg k
  outside : ∀ addr, OutsidePushes s.sp rs.length addr → t.mem.read addr = s.mem.read addr
  pushed : ∀ (k : Nat) (r : Byte) (hr : r.toNat < 8), rs[k]? = some r → rs.length ≤ k + 256 →
    ∀ addr < 256, (addr + 1 + k) % 256 = s.sp.toNat → t.mem.read addr = s.reg ⟨r.toNat, hr⟩

theorem pushed_nil (s : State) : Pushed [] s s where
  sp := Nat.mod_eq_of_lt s.sp.isLt
  reg _ _ := rfl
  outside _ _ := rfl
  pushed := nofun

theorem pushed_cons {r : Byte} {rs : List Byte} {s t : State} (hr : r.toNat < 7) (hrs : ∀ q ∈ rs, q.toNat < 7)
    (hwf : s.mem.wf) (h : Pushed rs (afterPush s ⟨r.toNat, hr.trans (by decide)⟩) t) : Pushed (r :: rs) s t where
  sp := by
    have hsp := h.sp
    rw [afterPush_sp_toNat] at hsp
    have := s.sp.isLt
    rw [List.length_cons]
    omega
  reg k hk := (h.reg k hk).trans (afterPush_reg_of_ne s _ (Fin.ne_of_val_ne hk))
  outside addr haddr := by
    obtain ⟨hne, hout⟩ := outsidePushes_succ haddr
    exact (h.outside addr hout).trans (afterPush_read_of_ne s _ hne)
  pushed k q hq hk hlen addr haddr hpos := by
    have hsp := afterPush_sp_toNat s ⟨r.toNat, hr.trans (by decide)⟩
    rw [List.length_cons] at hlen
    cases k with
    | zero =>
      obtain rfl : r = q := Option.some.inj hk
      obtain rfl : addr = (afterPush s ⟨r.toNat, hq⟩).sp.toNat := by omega
      exact (h.outside _ (outsidePushes_sp (by omega))).trans (afterPush_loadAtSp_of_ne hwf hq hr.ne)
    | succ k =>
      have hq7 : q.toNat < 7 := hrs q (List.mem_of_getElem? hk)
      calc t.mem.read addr = (afterPush s _).reg ⟨q.toNat, hq⟩ :=
            h.pushed k q hq hk (by omega) addr haddr (by omega)
        _ = s.reg ⟨q.toNat, hq⟩ := afterPush_reg_of_ne s _ (Fin.ne_of_val_ne hq7.ne)

theorem exists_pushed (rs : List Byte) : ∀ s : State, (∀ r ∈ rs, r.toNat < 7) → s.mem.wf →
    ∃ t, execAll (rs.map .push) s = .next t ∧ Pushed rs s t := by
  induction rs with
  | nil => exact fun s _ _ => ⟨s, rfl, pushed_nil s⟩
  | cons r rs ih =>
    intro s hall hwf
    obtain ⟨hr, hrs⟩ := List.forall_mem_cons.1 hall
    obtain ⟨t, ht, h⟩ := ih (afterPush s ⟨r.toNat, hr.trans (by decide)⟩) hrs (afterPush_mem_wf hwf _)
    exact ⟨t, (execAll_cons (exec_push s _)).trans ht, pushed_cons hr hrs hwf h⟩

/-- Settles O29, by induction on the list: the first push leaves its byte where fewer than 256 later pushes do not
reach. -/
theorem pushesFillDownwardAndWrap : Obligations.PushesFillDownwardAndWrap := by
  unfold Obligations.PushesFillDownwardAndWrap
  intro rs s hrs hwf
  obtain ⟨t, ht, h⟩ := exists_pushed rs s hrs hwf
  exact ⟨t, ht, h.sp, h.reg, h.pushed⟩

end Sys2Proof.Stack
end

section
/-! PROOFS. JEQ, JNE, CALL and RET (42_control.md R123 to R128). -/

namespace Sys2Proof.Control

open Sys2Proof.Machine Sys2Proof.Encoding Sys2Proof.Alu Sys2Proof.ExecRules Sys2Proof.StepLaws Sys2Proof.Frames
open Sys2Proof.Stack

/-- The Equal flag is the parity of `fl`. -/
theorem equalFlag_eq_true_iff {s : State} : s.equalFlag = true ↔ s.fl.toNat % 2 = 1 := by
  rw [State.equalFlag, BitVec.getLsbD, Nat.testBit_zero, decide_eq_true_iff]

theorem equalFlag_eq_false_iff {s : State} : s.equalFlag = false ↔ s.fl.toNat % 2 = 0 := by
  rw [Bool.eq_false_iff, Ne, equalFlag_eq_true_iff]
  omega

/-- A taken jump with a bad index stops there. -/
theorem raisesRegIndexFaultOf_of_jumpToReg {i : Instr} {a : Byte} {s : State} (hi : exec i s = jumpToReg a s)
    (ha : 8 ≤ a.toNat) : RaisesRegIndexFaultOf .a a i s :=
  raisesRegIndexFaultOf_of_withReg hi ha

/-- Settles O18: bit 0 of `fl` is its parity, and decides between the jump and the next instruction. -/
theorem jeqJumpsWhenEqualIsSet : Obligations.JeqJumpsWhenEqualIsSet := by
  unfold Obligations.JeqJumpsWhenEqualIsSet
  refine ⟨fun _ _ => ⟨rfl, rfl⟩, fun a s => ⟨fun hodd ha => ?_, fun hodd ha => ?_, fun heven => ?_⟩⟩
  · exact exec_of_executes (.jeqTaken ha (equalFlag_eq_true_iff.2 hodd))
  · exact raisesRegIndexFaultOf_of_jumpToReg (exec_jeq_taken (equalFlag_eq_true_iff.2 hodd)) ha
  · exact exec_jeq_passed (equalFlag_eq_false_iff.2 heven)

/-- Settles O19: bit 0 of `fl` is its parity, and decides between the next instruction and the jump. -/
theorem jneJumpsWhenEqualIsClear : Obligations.JneJumpsWhenEqualIsClear := by
  unfold Obligations.JneJumpsWhenEqualIsClear
  refine ⟨fun _ _ => ⟨rfl, rfl⟩, fun a s => ⟨fun heven ha => ?_, fun heven ha => ?_, fun hodd => ?_⟩⟩
  · exact exec_of_executes (.jneTaken ha (equalFlag_eq_false_iff.2 heven))
  · exact raisesRegIndexFaultOf_of_jumpToReg (exec_jne_taken (equalFlag_eq_false_iff.2 heven)) ha
  · exact exec_jne_passed (equalFlag_eq_true_iff.2 hodd)

/-- The return address of an executed CALL is one byte, and the byte at SP after it (R125). -/
theorem read_sp_of_call {a : Byte} {s t : State} (ha : a.toNat < 8) (hwf : s.mem.wf) (hpc : s.pc ≤ 253)
    (h : exec (.call a) s = .next t) : (t.mem.read t.sp.toNat).toNat = s.pc + 2 := by
  obtain rfl := Host.Outcome.next.inj ((exec_of_executes (.call (s := s) ha)).symm.trans h)
  calc _ = (narrow (s.pc + 2)).toNat := congrArg BitVec.toNat (storeAtSp_read_sp (s := s.decSp) hwf _)
    _ = s.pc + 2 := narrow_toNat_of_lt (by omega)

/-- Settles O20: the store is of a return address that is one byte; the target is read after the decrement. -/
theorem callPushesReturnAddressAndJumps : Obligations.CallPushesReturnAddressAndJumps := by
  unfold Obligations.CallPushesReturnAddressAndJumps
  refine ⟨fun _ _ => ⟨rfl, rfl⟩, fun _ _ => raisesRegIndexFaultOf_of_withReg rfl, fun a s ha hwf hpc => ?_⟩
  have hexec := exec_of_executes (.call (s := s) ha)
  exact ⟨_, hexec, decSp_sp_toNat s, fun k hk => State.decSp_reg_of_ne s (Fin.ne_of_val_ne hk),
    read_sp_of_call ha hwf hpc hexec, fun addr haddr => exec_read_eq_of_ne hexec (decSp_sp_toNat s ▸ haddr),
    decSp_reg_toNat s ⟨a.toNat, ha⟩, rfl⟩

/-- Settles O21: the handler loads pc and increments SP. -/
theorem retPopsIntoThePc : Obligations.RetPopsIntoThePc := by
  unfold Obligations.RetPopsIntoThePc
  refine ⟨⟨rfl, fun _ _ => rfl⟩, fun s => ⟨_, rfl, rfl, incSp_sp_toNat _, fun k hk => ?_, rfl⟩⟩
  exact State.incSp_reg_of_ne _ (Fin.ne_of_val_ne hk)

/-- Settles O30: the byte RET pops is the one CALL pushed, and the increment of SP undoes the decrement. -/
theorem retResumesAfterItsCall : Obligations.RetResumesAfterItsCall := by
  unfold Obligations.RetResumesAfterItsCall
  intro a s t u v ha hwf hpc hcall hsp hcell hret
  have hread := read_sp_of_call ha hwf hpc hcall
  have htsp : t.sp = s.sp - 1 := by
    obtain rfl := Host.Outcome.next.inj ((exec_of_executes (.call (s := s) ha)).symm.trans hcall)
    exact State.decSp_sp s
  obtain rfl := Host.Outcome.next.inj hret
  refine ⟨(congrArg BitVec.toNat hcell).trans hread, ?_, fun k hk => ?_, fun _ => rfl⟩
  · calc _ = u.sp + 1 := State.incSp_sp _
      _ = s.sp := by rw [hsp, htsp, sp_sub_one_add_one]
  · exact State.incSp_reg_of_ne _ (Fin.ne_of_val_ne hk)

end Sys2Proof.Control
end

section
/-! PROOFS. The decoder and the encoder are inverse to each other (30_encoding.md sections 1 to 3), for a window, for
the bytes of an instruction and for its number in the opcode table; and the placing of bytes in memory. -/

namespace Sys2Proof.Encoding

open Sys2Proof.Machine Sys2Proof.Control

/-! ## Decode and encode -/

/-- The bytes of a window in address order. -/
def windowBytes (w : Window) : List Byte := [w.ir, w.opA, w.opB]

theorem encode_length (i : Instr) : (encode i).length = i.length := by
  cases i <;> rfl

theorem length_le_three (i : Instr) : i.length ≤ 3 := by
  rw [Instr.length]
  cases i.format <;> decide

/-- The instruction of the same mnemonic with other operand bytes, as far as its format has them. -/
def withOperands (a b : Byte) : Instr → Instr
  | .hlt => .hlt
  | .ret => .ret
  | .push _ => .push a
  | .pop _ => .pop a
  | .prn _ => .prn a
  | .call _ => .call a
  | .jmp _ => .jmp a
  | .jeq _ => .jeq a
  | .jne _ => .jne a
  | .not _ => .not a
  | .ldi _ _ => .ldi a b
  | .add _ _ => .add a b
  | .mul _ _ => .mul a b
  | .mod _ _ => .mod a b
  | .cmp _ _ => .cmp a b
  | .and _ _ => .and a b
  | .or _ _ => .or a b
  | .xor _ _ => .xor a b
  | .shl _ _ => .shl a b
  | .shr _ _ => .shr a b

theorem decode_opcode (i : Instr) (a b : Byte) : decode ⟨opcode i, a, b⟩ = .ok (withOperands a b i) := by
  cases i <;> rfl

theorem encode_withOperands (i : Instr) (a b : Byte) :
    encode (withOperands a b i) = [opcode i, a, b].take i.length := by
  cases i <;> rfl

/-- A window decodes to the instruction whose encoding it begins with. -/
theorem decode_of_encode_eq {w : Window} {i : Instr} (h : encode i = (windowBytes w).take i.length) :
    decode w = .ok i := by
  obtain ⟨ir, a, b⟩ := w
  cases i <;> (cases h; rfl)

/-- A window begins with the encoding of what it decodes to. -/
theorem encode_eq_of_decode {w : Window} {i : Instr} (h : decode w = .ok i) :
    encode i = (windowBytes w).take i.length := by
  have hop : opcode i = w.ir := by
    rcases decode_cases w with ⟨j, hj, hop⟩ | he
    · cases hj.symm.trans h
      exact hop
    · cases he.symm.trans h
  obtain ⟨ir, a, b⟩ := w
  obtain rfl : opcode i = ir := hop
  have hi : withOperands a b i = i := Except.ok.inj ((decode_opcode i a b).symm.trans h)
  calc encode i = encode (withOperands a b i) := by rw [hi]
    _ = [opcode i, a, b].take i.length := encode_withOperands i a b

theorem decode_eq_ok_iff {w : Window} {i : Instr} : decode w = .ok i ↔ encode i = (windowBytes w).take i.length :=
  ⟨encode_eq_of_decode, decode_of_encode_eq⟩

theorem windowBytes_of_windowOfBytes {bs : List Byte} {w : Window} (h : windowOfBytes bs = some w) :
    windowBytes w = bs.take 3 := by
  match bs with
  | [] | [_] | [_, _] => cases h
  | _ :: _ :: _ :: _ => cases h; rfl

/-! ## The numbering of the opcode table -/

theorem packed_lt (bs : List Byte) : packed bs < 2 ^ (8 * bs.length) := by
  induction bs with
  | nil => decide
  | cons b bs ih =>
    have hpow : 2 ^ (8 * (bs.length + 1)) = 256 * 2 ^ (8 * bs.length) := by rw [Nat.mul_succ, Nat.pow_add, Nat.mul_comm]
    have hb := b.isLt
    rw [List.length_cons, hpow]
    change b.toNat + 256 * packed bs < _
    omega

/-- Byte `k` of the number is byte `k` of the list, and 0 past its end. -/
theorem ofNat_packed_div (bs : List Byte) (k : Nat) : BitVec.ofNat 8 (packed bs / 2 ^ (8 * k)) = bs.getD k 0 := by
  induction bs generalizing k with
  | nil => simp [packed]
  | cons b bs ih =>
    have hcons : packed (b :: bs) = b.toNat + 256 * packed bs := rfl
    have hb := b.isLt
    cases k with
    | zero =>
      apply BitVec.eq_of_toNat_eq
      rw [BitVec.toNat_ofNat, hcons, List.getD_cons_zero]
      omega
    | succ k =>
      have hdiv : packed (b :: bs) / 2 ^ (8 * (k + 1)) = packed bs / 2 ^ (8 * k) := by
        rw [Nat.mul_succ, Nat.add_comm, Nat.pow_add, ← Nat.div_div_eq_div_mul, hcons]
        congr 1
        omega
      rw [hdiv, ih, List.getD_cons_succ]

theorem windowOfTableWord_packed (bs : List Byte) : windowOfTableWord (8 * bs.length) (packed bs) =
    { ir := bs.getD 0 0, opA := bs.getD 1 0, opB := bs.getD 2 0 } := by
  have hir : BitVec.ofNat 8 (packed bs) = bs.getD 0 0 := Nat.div_one (packed bs) ▸ ofNat_packed_div bs 0
  simp only [windowOfTableWord, Nat.mod_eq_of_lt (packed_lt bs)]
  exact congr (congr (congrArg Window.mk hir) (ofNat_packed_div bs 1)) (ofNat_packed_div bs 2)

theorem take_getD_three {bs : List Byte} (h : bs.length ≤ 3) :
    [bs.getD 0 0, bs.getD 1 0, bs.getD 2 0].take bs.length = bs := by
  match bs with
  | [] | [_] | [_, _] | [_, _, _] => rfl
  | _ :: _ :: _ :: _ :: _ =>
    simp only [List.length_cons] at h
    omega

/-- The window read from an instruction's number decodes to the instruction. -/
theorem decode_windowOfTableWord (i : Instr) :
    decode (windowOfTableWord (8 * i.length) (packed (encode i))) = .ok i := by
  rw [decode_eq_ok_iff, ← encode_length, windowOfTableWord_packed]
  exact (take_getD_three (encode_length i ▸ length_le_three i)).symm

/-! ## Bytes in memory -/

/-- Bytes stored inside memory are read back from their addresses, and every other address reads as before. -/
theorem read_writeBytes {m : Memory} {addr : Nat} {bs : List Byte} (hwf : m.wf) (hfit : addr + bs.length ≤ 256)
    (k : Nat) : (m.writeBytes addr bs).read k = if addr ≤ k then bs.getD (k - addr) (m.read k) else m.read k := by
  induction bs generalizing m addr with
  | nil => simp [Memory.writeBytes]
  | cons b bs ih =>
    rw [List.length_cons] at hfit
    have haddr : addr < Config.memSize := by
      rw [Config.memSize]
      omega
    rw [Memory.writeBytes, if_pos haddr, ih (Memory.write_wf b hwf haddr) (by omega)]
    rcases Nat.lt_trichotomy k addr with hlt | rfl | hgt
    · rw [if_neg (by omega), if_neg (by omega), Memory.read_write_of_ne _ _ hlt.ne]
    · rw [if_neg (by omega), if_pos le_rfl, Memory.read_write_self hwf, Nat.sub_self, List.getD_cons_zero]
    · obtain ⟨d, rfl⟩ := Nat.exists_eq_add_of_lt hgt
      have hd : addr + d + 1 - addr = d + 1 := by omega
      have hd' : addr + d + 1 - (addr + 1) = d := by omega
      rw [if_pos (by omega), if_pos (by omega), Memory.read_write_of_ne _ _ hgt.ne', hd, hd', List.getD_cons_succ]

/-- The window of a placed instruction is the one placed. -/
theorem window_withFetchWord {s : State} (hwf : s.mem.wf) (hpc : s.pc ≤ 253) (nbits w : Nat) :
    (s.withFetchWord nbits w).window = windowOfTableWord nbits w := by
  have hread := read_writeBytes (bs := windowBytes (windowOfTableWord nbits w)) hwf (Nat.add_le_add_right hpc 3)
  have hir := hread s.pc
  have hopA := hread (s.pc + 1)
  have hopB := hread (s.pc + 2)
  rw [if_pos (by omega), Nat.sub_self] at hir
  rw [if_pos (by omega), Nat.add_sub_cancel_left] at hopA hopB
  exact congr (congr (congrArg Window.mk hir) hopA) hopB

/-! ## The obligations -/

/-- Settles O42: the window's bytes begin with the encoding, which fixes what they decode to. -/
theorem decodeOfEncodeIsTheInstruction : Obligations.DecodeOfEncodeIsTheInstruction := by
  unfold Obligations.DecodeOfEncodeIsTheInstruction
  intro i rest w h
  rw [decode_eq_ok_iff, windowBytes_of_windowOfBytes h, List.take_take, min_eq_left (length_le_three i),
    List.take_left' (encode_length i)]

/-- Settles O43: the window's opcode is the instruction's, and its operands are the bytes after it. -/
theorem encodeOfDecodeIsTheWindow : Obligations.EncodeOfDecodeIsTheWindow :=
  fun _ _ h => encode_eq_of_decode h

/-- Settles O45: seven closed runs of the decoder. -/
theorem writtenOutWordsDecode : Obligations.WrittenOutWordsDecode :=
  ⟨rfl, rfl, rfl, rfl, rfl, rfl, rfl⟩

/-- Settles O46: the placed bytes are the window, and the window decodes to the instruction. -/
theorem placedInstructionRunsNext : Obligations.PlacedInstructionRunsNext := by
  unfold Obligations.PlacedInstructionRunsNext
  intro i s hrun hpc hwf
  have hd := decode_windowOfTableWord i
  refine ⟨by rw [decodeTableWord, hd]; rfl, ?_⟩
  exact step_of_decode hrun hpc ((window_withFetchWord hwf hpc _ _).symm ▸ hd)

end Sys2Proof.Encoding
end

section
/-! PROOFS. Reset, the loaded image, and the host's exit codes (70_reset_and_hazards.md section 1, 60_exceptions.md
section 1). -/

namespace Sys2Proof.ResetLaws

open Sys2Proof.Machine Sys2Proof.Encoding

/-- The state at reset with any canonical memory is legal. -/
theorem reset_inv_of_wf {m : Memory} (hwf : m.wf) : State.Inv { State.reset with mem := m } where
  memWf := hwf
  pcRange := Nat.zero_le _
  flOneHot := .inl rfl
  statusAgrees := ⟨fun _ => rfl, fun _ => rfl⟩
  reasonLegal := nofun

/-- Settles O47: register by register, and an empty list of cells. -/
theorem resetLeavesEveryField : Obligations.ResetLeavesEveryField :=
  ⟨by decide, rfl, rfl, rfl, rfl, rfl, Memory.read_nil⟩

/-- Settles O49: the empty memory is canonical. -/
theorem resetIsLegal : Obligations.ResetIsLegal := reset_inv_of_wf Memory.wf_nil

theorem resetWithImage_of_le {image : List Byte} (h : image.length ≤ 256) :
    resetWithImage image = .ok { State.reset with mem := State.reset.mem.writeBytes 0 image } :=
  if_pos h

theorem resetWithImage_of_gt {image : List Byte} (h : 256 < image.length) :
    resetWithImage image = .error .imageTooLong :=
  if_neg (Nat.not_le.2 h)

/-- Settles O48: bytes stored from address 0 are read back at their index, over a memory that reads as the fill. -/
theorem imageIsPlacedFromAddressZero : Obligations.ImageIsPlacedFromAddressZero := by
  unfold Obligations.ImageIsPlacedFromAddressZero
  refine fun image => ⟨fun hlen => ⟨_, resetWithImage_of_le hlen, fun addr => ?_, rfl, ?_⟩, resetWithImage_of_gt⟩
  · exact (read_writeBytes Memory.wf_nil ((Nat.zero_add _).trans_le hlen) addr).trans (if_pos (Nat.zero_le addr))
  · exact reset_inv_of_wf (Memory.writeBytes_wf image 0 Memory.wf_nil)

/-- The process ends with 0 after a clean halt alone; the open code of a bounds fault is a successor. -/
theorem exitCode_eq_zero_iff (r : HaltReason) : r.exitCode = 0 ↔ r.isClean = true := by
  cases r with
  | hlt | divZero => exact ⟨fun _ => rfl, fun _ => rfl⟩
  | unknownOpcode | fetchBoundsFault | regIndexFault => exact ⟨nofun, nofun⟩

theorem status_code_le_and_eq_zero_iff (st : Status) : st.code ≤ 5 ∧ (st.code = 0 ↔ st = .running) := by
  cases st with
  | running => exact ⟨Nat.zero_le 5, fun _ => rfl, fun _ => rfl⟩
  | halted r => cases r <;> exact ⟨Nat.le_of_ble_eq_true rfl, nofun, nofun⟩

theorem processExitCode_eq_none_iff (st : Status) : processExitCode (.ok st) = none ↔ st = .running := by
  cases st with
  | running => exact ⟨fun _ => rfl, fun _ => rfl⟩
  | halted r => exact ⟨nofun, nofun⟩

/-- Settles O57: the codes are read off the reasons one by one, and there is one load error. -/
theorem exitCodeIsZeroExactlyForCleanHalts : Obligations.ExitCodeIsZeroExactlyForCleanHalts :=
  ⟨exitCode_eq_zero_iff, fun _ => rfl, fun _ e _ => by cases e; rfl, processExitCode_eq_none_iff, fun _ => rfl,
    status_code_le_and_eq_zero_iff, rfl, rfl, fun _ => rfl, fun _ => rfl, fun _ _ => rfl⟩

end Sys2Proof.ResetLaws
end
